-- ==== Sys2Proof/Word.lean ====
section
/-! DEFINITION. The block's plain values (R4): a byte, a level, and the four bytes of one ISP transaction. -/

namespace Sys2Proof

/-- A byte: an unsigned 8-bit value, bit 7 the most significant (R4). -/
abbrev Byte := BitVec 8

/-- The level of a line, one bit: `false` is 0 (electrically low), `true` is 1 (electrically high) (R4). -/
abbrev Level := Bool

/-- The four bytes of one direction of an ISP transaction, byte 0 first: a list of bytes, never a 32-bit number
(R21, R33). Also the shape of the reply buffer (R8). -/
structure Quad where
  b0 : Byte
  b1 : Byte
  b2 : Byte
  b3 : Byte
  deriving DecidableEq, Repr

/-- Four bytes 0x00. -/
def Quad.zero : Quad := ⟨0, 0, 0, 0⟩

/-- Byte `j` of the four. -/
def Quad.get (q : Quad) (j : Fin 4) : Byte :=
  match j with
  | 0 => q.b0
  | 1 => q.b1
  | 2 => q.b2
  | 3 => q.b3

/-- The four bytes with byte `j` replaced by `v`. -/
def Quad.put (q : Quad) (j : Fin 4) (v : Byte) : Quad :=
  match j with
  | 0 => { q with b0 := v }
  | 1 => { q with b1 := v }
  | 2 => { q with b2 := v }
  | 3 => { q with b3 := v }

/-- The four bytes in order. -/
def Quad.toList (q : Quad) : List Byte := [q.b0, q.b1, q.b2, q.b3]

end Sys2Proof
end

