-- ==== Sys2Proof/Machine/Events.lean ====
section
/-! DEFINITION. The names of the three output lines (R6), the events of the line-event trace (R49), the host events
(R51) and the six phases of one bit (R42). -/

namespace Sys2Proof.Machine

/-- The three lines the block drives (R6): `DATA_OUT`, `CLOCK`, `RESET`. -/
inductive OutLine where
  | dataOut
  | clock
  | reset
  deriving DecidableEq, Repr

/-- An event of the line-event trace (R49): all the target can observe of the block (R28). -/
inductive LineEvent where
  /-- `DataOut(v)`: `SetLine(DATA_OUT, v)` (R41). -/
  | dataOut (v : Level)
  /-- `Clock(v)`: `SetLine(CLOCK, v)` (R41). -/
  | clock (v : Level)
  /-- `Reset(v)`: `SetLine(RESET, v)` (R41). -/
  | reset (v : Level)
  /-- `Sample(s)`: `ReadLine(DATA_IN)` returned `s` (R41). -/
  | sample (s : Level)
  /-- `Settle`: `Wait(T_SETTLE)`, at least `T_SETTLE` passes with no line change (R41, R93). -/
  | settle
  deriving DecidableEq, Repr

/-- What the host can do to the block, and no other (R51). -/
inductive HostEvent where
  /-- The command start of a host-to-device report write, with its report id. -/
  | startWrite (id : Byte)
  /-- One chunk of zero or more bytes of that write. -/
  | data (bs : List Byte)
  /-- A device-to-host report read. -/
  | startRead (id : Byte)
  deriving DecidableEq, Repr

/-- The six steps of `transferBit`, phases 0 to 5 of R42 in their order. -/
inductive Phase where
  /-- Phase 0: `SetLine(DATA_OUT, v)`. -/
  | driveData
  /-- Phase 1: `Wait(T_SETTLE)`. -/
  | settleLow
  /-- Phase 2: `SetLine(CLOCK, 1)`. -/
  | raiseClock
  /-- Phase 3: sample `DATA_IN` into `rsr`. -/
  | sample
  /-- Phase 4: `Wait(T_SETTLE)`. -/
  | settleHigh
  /-- Phase 5: `SetLine(CLOCK, 0)`. -/
  | lowerClock
  deriving DecidableEq, Repr

/-- The number R42 gives the phase. -/
def Phase.number : Phase → Nat
  | .driveData => 0
  | .settleLow => 1
  | .raiseClock => 2
  | .sample => 3
  | .settleHigh => 4
  | .lowerClock => 5

/-- Is the phase one of the two holds (phases 1 and 4), where `waitCnt` counts (R79)? -/
def Phase.isSettle : Phase → Bool
  | .settleLow => true
  | .settleHigh => true
  | .driveData => false
  | .raiseClock => false
  | .sample => false
  | .lowerClock => false

/-- Is `CLOCK` high when the phase is about to run? It is raised by phase 2 and lowered by phase 5 (R42). -/
def Phase.clockHigh : Phase → Bool
  | .driveData => false
  | .settleLow => false
  | .raiseClock => false
  | .sample => true
  | .settleHigh => true
  | .lowerClock => true

end Sys2Proof.Machine
end

