-- ==== Sys2Proof/Config.lean ====
section
/-! DEFINITION. What an implementation of the block fixes (the decision and OPEN rows of R3) and the free values. The
values chosen by the spec's decisions stand in Machine/Parameters.lean; a statement about every state holds for every
value of these fields that meets `Params.wf`, the spec's own constraints. -/

namespace Sys2Proof

/-- The parameters of R3 that the source does not fix. They are fixed when the block is built (R83): State carries
them in a field of its own and no step changes it (assumption 1). -/
structure Params where
  /-- `OPC_RESET_DEVICE` (R36). -/
  opcResetDevice : Byte
  /-- `OPC_ISP_COMMAND` (R36). -/
  opcIspCommand : Byte
  /-- `BATCH_BASE`, the frame offset of the first batched transaction (R31, R35). -/
  batchBase : Nat
  /-- `R1_STATUS_OFF` (R32). -/
  r1StatusOff : Nat
  /-- `R1_SEQ_OFF` (R32). -/
  r1SeqOff : Nat
  /-- `R1_REPLY_OFF` (R32). -/
  r1ReplyOff : Nat
  /-- `STATUS_ASSERTED` (R68). -/
  statusAsserted : Byte
  /-- `STATUS_DEASSERTED` (R68). -/
  statusDeasserted : Byte
  /-- `T_SETTLE` in nanoseconds (R47; assumption 2). -/
  tSettleNs : Nat
  /-- `F_CLK` in hertz (R3; assumption 2). -/
  fClkHz : Nat
  /-- `MAX_CHUNK`, the most bytes one host data chunk carries (R3, R51; assumption 23). No rule of the block reads it
  (R56): it bounds what the host offers. -/
  maxChunk : Nat
  deriving DecidableEq, Repr

/-- `SETTLE_CYCLES` = ceil(`T_SETTLE` × `F_CLK`) (R3), with `T_SETTLE` in nanoseconds. -/
def Params.settleCycles (p : Params) : Nat := (p.tSettleNs * p.fClkHz + 999999999) / 1000000000

/-- The constraints the spec puts on the parameters (R3 and the open-parameter table of 92_eei_decisions.md):
distinct opcodes; `4 ≤ BATCH_BASE ≤ 9`; distinct report 1 offsets in 1 to 6, the reply taking four in a row; distinct
status values; `SETTLE_CYCLES ≥ 1`; `MAX_CHUNK ≥ 1`. -/
def Params.wf (p : Params) : Bool :=
  p.opcResetDevice != p.opcIspCommand
    && (decide (4 ≤ p.batchBase) && decide (p.batchBase ≤ 9))
    && (decide (1 ≤ p.r1StatusOff) && decide (p.r1StatusOff ≤ 6))
    && (decide (1 ≤ p.r1SeqOff) && decide (p.r1SeqOff ≤ 6))
    && (decide (1 ≤ p.r1ReplyOff) && decide (p.r1ReplyOff ≤ 3))
    && decide (p.r1StatusOff ≠ p.r1SeqOff)
    && (decide (p.r1StatusOff < p.r1ReplyOff) || decide (p.r1ReplyOff + 4 ≤ p.r1StatusOff))
    && (decide (p.r1SeqOff < p.r1ReplyOff) || decide (p.r1ReplyOff + 4 ≤ p.r1SeqOff))
    && p.statusAsserted != p.statusDeasserted
    && decide (1 ≤ p.settleCycles)
    && decide (1 ≤ p.maxChunk)

/-- FREE VALUE (R28; assumption 3): the level the target presents at sample number `n` after the line events `tr`
(newest first), where the field `targetIn` lists none. The block puts no constraint on it. -/
opaque Config.targetDraw (n : Nat) (tr : List Machine.LineEvent) : Level

/-- FREE VALUE (OPEN parameter of R3; assumption 2): `T_SETTLE` of the block that State.reset describes, in
nanoseconds, less one (so that it is positive). -/
opaque Config.tSettleNsLessOne : Nat

/-- FREE VALUE (OPEN parameter of R3; assumption 2): `F_CLK` of the block that State.reset describes, in hertz, less
one (so that it is positive). -/
opaque Config.fClkHzLessOne : Nat

/-- FREE VALUE (OPEN parameter of R3; assumption 23): `MAX_CHUNK` of the block that State.reset describes, less one (so
that it is positive). -/
opaque Config.maxChunkLessOne : Nat

/-- FREE VALUE (R16, R69 give the empty answer its length only; assumption 24): what `h_rd_data` shows while `h_rd_len`
is 0, after `n` answers. -/
opaque Config.readDataWhenEmpty (n : Nat) : BitVec 56

end Sys2Proof
end

