-- ==== Sys2Proof/Machine/Parameters.lean ====
section
/-! DEFINITION. The constants of R3 that the source fixes, and the values the spec's decisions D3, D4, D5 and D7 choose
for the parameters it leaves open. -/

namespace Sys2Proof.Machine

/-- `REPORT_STATUS_ID` (R3): the report id of the status report. -/
def reportStatusId : Byte := 1

/-- `REPORT_SINGLE_ID` (R3): the report id of the single frame. -/
def reportSingleId : Byte := 2

/-- `REPORT_BATCH_ID` (R3): the report id of the batch frame. -/
def reportBatchId : Byte := 3

/-- `RX_SIZE_SINGLE` (R3): bytes of a single frame, report id included. -/
def rxSizeSingle : Nat := 7

/-- `RX_SIZE_BATCH` (R3): bytes of a batch frame, report id included. -/
def rxSizeBatch : Nat := 133

/-- `RXBUF_LEN` (R3, R9): bytes of the receive buffer. -/
def rxbufLen : Nat := 133

/-- Bytes of a batch frame after payload byte 0 (R31): 133 less the four header bytes. -/
def batchBodyLen : Nat := 129

/-- `STATUS_REPORT_LEN` (R3): bytes of report 1. -/
def statusReportLen : Nat := 7

/-- `COUNT_MASK` (R3): the mask that extracts the batch count. -/
def countMask : Byte := 0x1F

/-- `SEQ_OFF` (R3): frame offset of the sequence byte. -/
def seqOff : Nat := 1

/-- `OPC_OFF` (R3): frame offset of the opcode byte. -/
def opcOff : Nat := 2

/-- `PAYLOAD_OFF` (R3): frame offset of payload byte 0. -/
def payloadOff : Nat := 3

/-- The default parameters: opcodes 0x01 and 0x02 (decision D3), report 1 offsets 1, 2, 3 (D4), status values 0x01 and
0x00 (D5), `BATCH_BASE` 4 (D7); the two OPEN times (assumption 2)
and `MAX_CHUNK` (assumption 23) are free. -/
def defaultParams : Params where
  opcResetDevice := 0x01
  opcIspCommand := 0x02
  batchBase := 4
  r1StatusOff := 1
  r1SeqOff := 2
  r1ReplyOff := 3
  statusAsserted := 0x01
  statusDeasserted := 0x00
  tSettleNs := Config.tSettleNsLessOne + 1
  fClkHz := Config.fClkHzLessOne + 1
  maxChunk := Config.maxChunkLessOne + 1

end Sys2Proof.Machine
end

