-- ==== Sys2Proof/Syntax.lean ====
section
/-! DEFINITION. The instructions of the block: one constructor per row of spec/opcode_table.json. -/

namespace Sys2Proof

/-- The layouts of R29 an instruction is read from. -/
inductive Format where
  /-- Report 2, host to device, 7 bytes (R30). -/
  | single
  /-- Report 3, host to device, 133 bytes (R31). -/
  | batch
  /-- Report 1, device to host: only the report id of the `StartRead` selects it (R32, R67; assumption 14). -/
  | status
  /-- The serial format toward the target, 4 command bytes (R33, R44). -/
  | serial
  deriving DecidableEq, Repr

/-- The commands of the block. The operand names are the table's "source_fields": `r` the report id byte inside the
data (stored, never examined, R38), `q` the sequence byte, `f` the flag, `n` the count byte, `o` the opcode byte. -/
inductive Instr where
  /-- RESET_DEVICE.S (R60, R30): `f` is payload byte 0; `x1 x2 x3` are ignored. -/
  | resetDeviceS (r q f x1 x2 x3 : Byte)
  /-- RESET_DEVICE.B (R60, R31): `f` is payload byte 0; the 129 bytes of `body` are ignored. -/
  | resetDeviceB (r q f : Byte) (body : List Byte)
  /-- ISP_COMMAND.S (R61, R30): `c` is the four command bytes. -/
  | ispCommandS (r q : Byte) (c : Quad)
  /-- ISP_COMMAND.B (R62, R31): the count is bits 4:0 of `n`; `body` is frame offsets 4 to 132: the transaction slots
  from `BATCH_BASE` on, and padding. -/
  | ispCommandB (r q n : Byte) (body : List Byte)
  /-- UNKNOWN.S (R63, R30): `o` is any opcode byte other than the two defined. -/
  | unknownS (r q o x0 x1 x2 x3 : Byte)
  /-- UNKNOWN.B (R63, R31): `o` is any opcode byte other than the two defined; `x` and `body` are ignored. -/
  | unknownB (r q o x : Byte) (body : List Byte)
  /-- STATUS_READ (R67): selected by the event `StartRead(1)`; no operand. -/
  | statusRead
  /-- ISP_TRANSACTION (R44): the internal `issueCommand(c)`; not a host command. -/
  | ispTransaction (c : Quad)
  deriving DecidableEq, Repr

/-- The layout an instruction is written in. -/
def Instr.format : Instr → Format
  | .resetDeviceS _ _ _ _ _ _ => .single
  | .resetDeviceB _ _ _ _ => .batch
  | .ispCommandS _ _ _ => .single
  | .ispCommandB _ _ _ _ => .batch
  | .unknownS _ _ _ _ _ _ _ => .single
  | .unknownB _ _ _ _ _ => .batch
  | .statusRead => .status
  | .ispTransaction _ => .serial

end Sys2Proof
end

