-- ==== Sys2Proof/WellFormed.lean ====
section
/-! DEFINITION. Which terms of `Instr` are instructions of the block: a batch body has its 129 bytes (R31), and an
unknown opcode is neither of the two defined (R63). -/

namespace Sys2Proof

/-- Is `o` an opcode byte the source does not define, under the parameters `p` (R63)? -/
def unknownOpcode (p : Params) (o : Byte) : Bool := o != p.opcResetDevice && o != p.opcIspCommand

/-- Does the batch body have the 129 bytes that follow payload byte 0 (R31)? -/
def fullBody (body : List Byte) : Bool := body.length == Machine.batchBodyLen

/-- The well-formed instructions of a block with the parameters `p`. -/
def Instr.wf (p : Params) : Instr → Bool
  | .resetDeviceS _ _ _ _ _ _ => true
  | .resetDeviceB _ _ _ body => fullBody body
  | .ispCommandS _ _ _ => true
  | .ispCommandB _ _ _ body => fullBody body
  | .unknownS _ _ o _ _ _ _ => unknownOpcode p o
  | .unknownB _ _ o _ body => unknownOpcode p o && fullBody body
  | .statusRead => true
  | .ispTransaction _ => true

end Sys2Proof
end

