-- ==== Sys2Proof/Decode.lean ====
section
/-! DEFINITION. The decoder, total on any bytes and rejecting by name; the encoder, from the same layouts (R30 to R33);
and the reading of a number of spec/opcode_table.json (assumptions 12 and 13). -/

namespace Sys2Proof

/-- Why bytes are no instruction of a layout. -/
inductive DecodeError where
  /-- Fewer bytes than the layout has (R39). -/
  | tooShort (f : Format)
  /-- A `StartRead` id other than 1 selects no report (R69). -/
  | noSuchReport (id : Byte)
  deriving DecidableEq, Repr

/-- The bytes a layout has: 7, 133, 4 (R29, R39). The status read is selected by one byte, the report id of its
`StartRead`; the other six bytes of report 1 are the block's answer (R32; assumption 14). -/
def formatLength : Format → Nat
  | .single => 7
  | .batch => 133
  | .status => 1
  | .serial => 4

/-- R37: the opcode byte selects the operation of a single frame; every other opcode is unknown (R63). The report id
byte is not examined (R38). -/
def decodeSingle (p : Params) (r q o a b c d : Byte) : Instr :=
  if o = p.opcResetDevice then .resetDeviceS r q a b c d
  else if o = p.opcIspCommand then .ispCommandS r q ⟨a, b, c, d⟩
  else .unknownS r q o a b c d

/-- R37: the opcode byte selects the operation of a batch frame; `body` is frame offsets 4 to 132. -/
def decodeBatch (p : Params) (r q o n : Byte) (body : List Byte) : Instr :=
  if o = p.opcResetDevice then .resetDeviceB r q n body
  else if o = p.opcIspCommand then .ispCommandB r q n body
  else .unknownB r q o n body

/-- Read one instruction of the layout `f` from the front of `bs`, with the bytes left over. -/
def decode (p : Params) (f : Format) (bs : List Byte) : Except DecodeError (Instr × List Byte) :=
  match f with
  | .single =>
    match bs with
    | r :: q :: o :: a :: b :: c :: d :: rest => .ok (decodeSingle p r q o a b c d, rest)
    | _ => .error (.tooShort .single)
  | .batch =>
    match bs with
    | r :: q :: o :: n :: rest =>
      if Machine.batchBodyLen ≤ rest.length then
        .ok (decodeBatch p r q o n (rest.take Machine.batchBodyLen), rest.drop Machine.batchBodyLen)
      else .error (.tooShort .batch)
    | _ => .error (.tooShort .batch)
  | .status =>
    match bs with
    | id :: rest => if id = Machine.reportStatusId then .ok (.statusRead, rest) else .error (.noSuchReport id)
    | [] => .error (.tooShort .status)
  | .serial =>
    match bs with
    | a :: b :: c :: d :: rest => .ok (.ispTransaction ⟨a, b, c, d⟩, rest)
    | _ => .error (.tooShort .serial)

/-- The bytes of an instruction, frame offset 0 first (R30, R31, R33; for the status read the report id of R67). -/
def encode (p : Params) : Instr → List Byte
  | .resetDeviceS r q f x1 x2 x3 => [r, q, p.opcResetDevice, f, x1, x2, x3]
  | .resetDeviceB r q f body => r :: q :: p.opcResetDevice :: f :: body
  | .ispCommandS r q c => [r, q, p.opcIspCommand, c.b0, c.b1, c.b2, c.b3]
  | .ispCommandB r q n body => r :: q :: p.opcIspCommand :: n :: body
  | .unknownS r q o x0 x1 x2 x3 => [r, q, o, x0, x1, x2, x3]
  | .unknownB r q o x body => r :: q :: o :: x :: body
  | .statusRead => [Machine.reportStatusId]
  | .ispTransaction c => [c.b0, c.b1, c.b2, c.b3]

/-- The `k` bytes of the number `w`, most significant first: the table writes the first bytes of a frame "as one big
number, frame offset 0 in the most significant byte" (opcode_table.json, notes). -/
def bigEndianBytes (k w : Nat) : List Byte :=
  (List.range k).map fun i => BitVec.ofNat 8 (w >>> (8 * (k - 1 - i)))

/-- The `k` bytes of the number `w`, least significant first. -/
def littleEndianBytes (k w : Nat) : List Byte :=
  (List.range k).map fun i => BitVec.ofNat 8 (w >>> (8 * i))

/-- The layout of a table number of `nbits` bits: the first row whose match and mask it meets (assumption 13). Up to
32 bits it is the four-byte header of a batch row when the opcode byte (bits 15:8) is a defined one, else the serial
row. Up to 56 bits it is a seven-byte row: a single frame, unless the opcode byte (bits 39:32) is no defined one and
the first byte (bits 55:48) is 0x01, the status row. Above that it is a whole batch frame. -/
def tableFormat (p : Params) (nbits w : Nat) : Format :=
  if nbits ≤ 32 then
    if unknownOpcode p (BitVec.ofNat 8 (w >>> 8)) then .serial else .batch
  else if nbits ≤ 56 then
    if unknownOpcode p (BitVec.ofNat 8 (w >>> 32)) && BitVec.ofNat 8 (w >>> 48) == Machine.reportStatusId then .status
    else .single
  else .batch

/-- The bytes of a table number, in the order they arrive: seven or four bytes as one big number; for a batch frame
the table numbers frame offsets 0 to 3 as one 32-bit big number, and the later bytes count on from bit 32. -/
def tableBytes (f : Format) (w : Nat) : List Byte :=
  match f with
  | .single => bigEndianBytes 7 w
  | .batch => bigEndianBytes 4 w ++ littleEndianBytes Machine.batchBodyLen (w >>> 32)
  | .status => bigEndianBytes 7 w
  | .serial => bigEndianBytes 4 w

/-- The instruction the decoder reads from the table number `w` of `nbits` bits. -/
def decodeTableWord (nbits w : Nat) : Option Instr :=
  match decode Machine.defaultParams (tableFormat Machine.defaultParams nbits w)
      (tableBytes (tableFormat Machine.defaultParams nbits w) w) with
  | .ok (i, _) => some i
  | .error _ => none

end Sys2Proof
end

