-- ==== Sys2Proof/Machine/State.lean ====
section
/-! DEFINITION. The state of the block (R6 to R17, R49), the inputs that wait for it (R28, R51, R81), its state after
reset (R17, R81), and the reasons a step can stop. -/

namespace Sys2Proof.Machine

/-- The contents of the receive buffer `rxbuf[0..132]` (R9, R20): (index, byte) pairs in one canonical form, indices
strictly rising, none equal to what an unlisted index reads as. -/
abbrev Memory := List Host.Cell

/-- The machine's state. INVENTORY.md '## State' lists each field with its rule and its reset value. -/
structure State where
  /-- The parameters the block was built with (R3, R83; assumption 1). -/
  params : Params
  /-- `line[DATA_OUT]` (R6). -/
  lineDataOut : Level
  /-- `line[CLOCK]` (R6). -/
  lineClock : Level
  /-- `line[RESET]` (R6), the block's one status flag (R12): low holds the target. -/
  lineReset : Level
  /-- The response shift register (R7). -/
  rsr : Byte
  /-- The response bytes `r[0..3]` of the transaction being assembled (R44; assumption 6). -/
  resp : Quad
  /-- The reply buffer `reply[0..3]` (R8). -/
  reply : Quad
  /-- The receive buffer (R9). -/
  rxbuf : Memory
  /-- The index in `rxbuf` at which the next accepted byte is stored (R10). -/
  receiveOffset : Nat
  /-- The length of the frame being accumulated (R11). -/
  receiveSize : Nat
  /-- Set for the whole of a dispatch (R13). -/
  busy : Bool
  /-- The batched transaction in progress (R13). -/
  txnIdx : Fin 32
  /-- The byte of the transaction in progress (R13). -/
  byteIdx : Fin 4
  /-- The bit of the byte in progress, counting 7 down to 0 (R13). -/
  bitIdx : Fin 8
  /-- The step of R42 in progress (R13). -/
  phase : Phase
  /-- The settle-delay timer (R13, R79). -/
  waitCnt : Nat
  /-- The line-event trace (R49), newest event first (assumption 18). -/
  trace : List LineEvent
  /-- The answers given to `StartRead` events (R67, R69), newest first (assumption 9). -/
  answers : List (List Byte)
  /-- INPUT: the level of the port `rst` (R16, R81; assumption 8). -/
  rst : Bool
  /-- INPUT: host events offered and not yet taken, oldest first (R51; assumption 4). -/
  hostQueue : List HostEvent
  /-- INPUT: the levels the target presents at the coming samples, next one first (R28; assumption 3). -/
  targetIn : List Level
  /-- How many samples have been taken (R28; assumption 3). -/
  draws : Nat
  /-- Does a step perform one phase of a dispatch (true) or the whole dispatch (false) (R49; assumption 5)? -/
  phased : Bool
  deriving DecidableEq, Repr

/-- The state right after reset (R17, R81), with the default parameters, no input offered and the model's own fields
as assumptions 3 to 9 say. -/
def State.reset : State where
  params := defaultParams
  lineDataOut := false
  lineClock := false
  lineReset := true
  rsr := 0x00
  resp := Quad.zero
  reply := Quad.zero
  rxbuf := []
  receiveOffset := 0
  receiveSize := 0
  busy := false
  txnIdx := 0
  byteIdx := 0
  bitIdx := 7
  phase := .driveData
  waitCnt := 0
  trace := []
  answers := []
  rst := false
  hostQueue := []
  targetIn := []
  draws := 0
  phased := false

/-- Why the machine stops. The block itself raises no fault (R72): both reasons need a state that breaks the spec's
own invariant (R14), so no run of the hardware meets them (assumption 10). -/
inductive Fault where
  /-- Raised by `Data` when the append would store at an index above 132, which R20 says no rule computes. Safe. -/
  | rxbufIndex (i : Nat)
  /-- Raised by the dispatch of a complete frame whose size is neither 7 nor 133, which R54 excludes. Safe. -/
  | frameSize (n : Nat)
  deriving DecidableEq, Repr

/-- Why the machine gives an instruction no meaning. -/
inductive Refusal where
  /-- Raised by `exec` for an instruction without a meaning yet, by its mnemonic. Safe. No arm raises it now. -/
  | notModelled (mnemonic : String)
  /-- Raised by a dispatch whose bytes the decoder refuses; a complete frame always decodes, so none does. Safe. -/
  | undecoded
  deriving DecidableEq, Repr

/-- One outcome of a step. -/
abbrev Out := Host.Outcome State Fault Refusal

end Sys2Proof.Machine
end

