-- ==== Sys2Proof/Machine/Ops.lean ====
section
/-! DEFINITION. The named operations over the receive buffer, the lines and the registers: the primitives of R41, the
signal driver of R42 to R45, and the hardware reset of R81. THE BLOCK HAS NO EXCEPTION ENTRY AND NO RETURN FROM ONE
(R72, R76, R77), so no such operation stands here. -/

namespace Sys2Proof.Machine

/-! ### Sequencing outcomes -/

/-- Go on with `f` where `o` is a next state; a stop stays as it is. -/
def andThen (o : Out) (f : State → Out) : Out :=
  match o with
  | .next s => f s
  | .fault r => .fault r
  | .refused r => .refused r

/-! ### The receive buffer -/

/-- What an index that is not listed reads as: 0x00, the reset contents of `rxbuf` (R17). -/
def Memory.unlisted : Byte := 0x00

/-- `rxbuf[i]`. -/
def Memory.load : Memory → Nat → Byte
  | [], _ => Memory.unlisted
  | (a, b) :: m, i => if a = i then b else Memory.load m i

/-- `rxbuf[i] <- v`, keeping the canonical form: storing what an unlisted index reads as removes the entry. -/
def Memory.store : Memory → Nat → Byte → Memory
  | [], i, v => if v = Memory.unlisted then [] else [(i, v)]
  | (a, b) :: m, i, v =>
    if i < a then (if v = Memory.unlisted then (a, b) :: m else (i, v) :: (a, b) :: m)
    else if i = a then (if v = Memory.unlisted then m else (i, v) :: m)
    else (a, b) :: Memory.store m i v

/-- `rxbuf[i] <- bs[0]`, `rxbuf[i+1] <- bs[1]`, ... in ascending order (R20, R53). -/
def Memory.storeAll : Memory → Nat → List Byte → Memory
  | m, _, [] => m
  | m, i, b :: bs => Memory.storeAll (Memory.store m i b) (i + 1) bs

/-- The canonical form from index `lo` on: indices strictly rising, below 133 (R20), no entry equal to the unlisted
byte. -/
def Memory.wfFrom : Nat → Memory → Bool
  | _, [] => true
  | lo, (a, b) :: m => decide (lo ≤ a) && decide (a < rxbufLen) && b != Memory.unlisted && Memory.wfFrom (a + 1) m

/-- The receive buffer is in its canonical form. -/
def Memory.wf (m : Memory) : Bool := Memory.wfFrom 0 m

/-! ### The primitives (R41) -/

/-- `SetLine(id, v)` (R41): drive the line and append its event, also when the line already has that level. -/
def State.setLine (l : OutLine) (v : Level) (s : State) : State :=
  match l with
  | .dataOut => { s with lineDataOut := v, trace := .dataOut v :: s.trace }
  | .clock => { s with lineClock := v, trace := .clock v :: s.trace }
  | .reset => { s with lineReset := v, trace := .reset v :: s.trace }

/-- `Wait(T_SETTLE)` (R41): append `Settle`; no line changes. -/
def State.wait (s : State) : State := { s with trace := .settle :: s.trace }

/-- The level `ReadLine(DATA_IN)` returns (R28, R41): the next one the target's list gives, else a free value. -/
def State.dataIn (s : State) : Level :=
  match s.targetIn with
  | v :: _ => v
  | [] => Config.targetDraw s.draws s.trace

/-- The state after `ReadLine(DATA_IN)` (R41): `Sample(s)` appended, one draw consumed. -/
def State.readLine (s : State) : State :=
  { s with trace := .sample s.dataIn :: s.trace, targetIn := s.targetIn.tail, draws := s.draws + 1 }

/-! ### The signal driver (R42 to R45) -/

/-- `((r << 1) | s)[7:0]` (R42, R50): the top bit is discarded, the sample enters at bit 0. -/
def shiftIn (r : Byte) (s : Level) : Byte := (r <<< 1) ||| (BitVec.ofBool s).setWidth 8

/-- Phase 3 of R42: `s <- ReadLine(DATA_IN)`, then the shift of `rsr`. -/
def State.samplePhase (s : State) : State := { s.readLine with rsr := shiftIn s.rsr s.dataIn }

/-- `transferBit(v)` (R42), the six phases in their order; the bit sampled ends as bit 0 of `rsr`. -/
def State.transferBit (v : Level) (s : State) : State :=
  ((((((s.setLine .dataOut v).wait).setLine .clock true).samplePhase).wait).setLine .clock false)

/-- The cycles of `transferByte` for bits `k-1` down to 0 of `b` (R43). -/
def State.transferBits (b : Byte) : Nat → State → State
  | 0, s => s
  | k + 1, s => State.transferBits b k (s.transferBit (b.getLsbD k))

/-- `transferByte(b)` (R43): most significant bit first over 8 cycles; the result is `rsr`. -/
def State.transferByte (b : Byte) (s : State) : State := State.transferBits b 8 s

/-- `r[j] <- v` (R44). -/
def State.putResp (j : Fin 4) (v : Byte) (s : State) : State := { s with resp := s.resp.put j v }

/-- `r[j] <- transferByte(b)` (R44). -/
def State.transferInto (j : Fin 4) (b : Byte) (s : State) : State :=
  (s.transferByte b).putResp j (s.transferByte b).rsr

/-- `issueCommand(c)` (R44): four bytes, all four responses kept in `resp`; it does not write `reply`. -/
def State.issueCommand (c : Quad) (s : State) : State :=
  (((s.transferInto 0 c.b0).transferInto 1 c.b1).transferInto 2 c.b2).transferInto 3 c.b3

/-- `reply[0..3] <- r[0..3]` (R61, R62). -/
def State.storeReply (s : State) : State := { s with reply := s.resp }

/-- The transactions of a batch in their order, each storing its reply (R62). -/
def State.issueAll : List Quad → State → State
  | [], s => s
  | c :: cs, s => State.issueAll cs (s.issueCommand c).storeReply

/-- `setReset(a)` (R45): assert (low) or deassert (high) the reset line; no other line, no delay. -/
def State.setReset (a : Bool) (s : State) : State :=
  if a then s.setLine .reset false else s.setLine .reset true

/-! ### Register writes -/

/-- `busy <- b` (R59). -/
def State.setBusy (b : Bool) (s : State) : State := { s with busy := b }

/-- The answer of a `StartRead` is given to the host (R67, R69). -/
def State.answer (a : List Byte) (s : State) : State := { s with answers := a :: s.answers }

/-- `StartWrite(id)` (R52): the frame size the report id gives, 0 for an undefined id; the offset to 0. -/
def State.startWrite (id : Byte) (s : State) : State :=
  { s with
    receiveSize :=
      if id = reportSingleId then rxSizeSingle
      else if id = reportBatchId then rxSizeBatch
      else 0
    receiveOffset := 0 }

/-- The append of R53 for bytes that fit: store them from `receiveOffset` on, and advance it. -/
def State.append (bs : List Byte) (s : State) : State :=
  { s with rxbuf := s.rxbuf.storeAll s.receiveOffset bs, receiveOffset := s.receiveOffset + bs.length }

/-! ### The hardware reset -/

/-- The hardware reset (R81): every piece of the block's state takes the value of R17, whatever was in progress; the
build parameters and what the outside offers (`rst`, waiting host events, the target's levels) stay (assumptions 8
and 22). -/
def State.hardReset (s : State) : State :=
  { State.reset with
    params := s.params
    rst := s.rst
    hostQueue := s.hostQueue
    targetIn := s.targetIn
    draws := s.draws
    phased := s.phased }

end Sys2Proof.Machine
end

