-- ==== Sys2Proof/Machine/Flags.lean ====
section
/-! DEFINITION. The block's one flag, the reset-line state (R12), and the status byte that reports it (R68). There is
no carry, zero, overflow or error flag (R12). -/

namespace Sys2Proof.Machine

/-- `resetAsserted` (R12): the reset line is low, the target is held. -/
def State.resetAsserted (s : State) : Bool := !s.lineReset

/-- The status byte (R68), computed from the line at the moment of the read. -/
def State.statusByte (s : State) : Byte :=
  if s.resetAsserted then s.params.statusAsserted else s.params.statusDeasserted

end Sys2Proof.Machine
end

