-- ==== Sys2Proof/Machine/Operands.lean ====
section
/-! DEFINITION. How each operand is read: the `RESET_DEVICE` flag (R34), the batch count and the transaction slots
(R35), and the seven bytes of the status report (R32, R67). -/

namespace Sys2Proof.Machine

/-- The `RESET_DEVICE` flag (R34): any nonzero byte is true; all eight bits take part. -/
def resetFlag (f : Byte) : Bool := f != 0x00

/-- The batch count (R35): bits 4:0 of payload byte 0; bits 7:5 are dropped without a check. -/
def batchCount (n : Byte) : Nat := (n &&& countMask).toNat

/-- The byte of a batch frame at frame offset `k ≥ 4`, from the bytes after payload byte 0 (R31). The body of a
well-formed instruction holds every offset a slot can have, so the 0 past its end is never read (assumption 19). -/
def bodyByte (body : List Byte) (k : Nat) : Byte := body.getD (k - 4) 0

/-- Transaction slot `i` (R35): the four bytes at frame offsets `BATCH_BASE + 4i` to `BATCH_BASE + 4i + 3`. -/
def batchSlot (p : Params) (body : List Byte) (i : Nat) : Quad :=
  ⟨bodyByte body (p.batchBase + 4 * i), bodyByte body (p.batchBase + 4 * i + 1),
    bodyByte body (p.batchBase + 4 * i + 2), bodyByte body (p.batchBase + 4 * i + 3)⟩

/-- The transactions of a batch, slots 0 to `count - 1` in ascending order (R35, R62). -/
def batchTransactions (p : Params) (n : Byte) (body : List Byte) : List Quad :=
  (List.range (batchCount n)).map (batchSlot p body)

/-- How many ISP transactions an instruction performs (R60 to R63, R67). -/
def transactionCount : Instr → Nat
  | .resetDeviceS _ _ _ _ _ _ => 0
  | .resetDeviceB _ _ _ _ => 0
  | .ispCommandS _ _ _ => 1
  | .ispCommandB _ _ n _ => batchCount n
  | .unknownS _ _ _ _ _ _ _ => 0
  | .unknownB _ _ _ _ _ => 0
  | .statusRead => 0
  | .ispTransaction _ => 1

/-- Byte `k` of report 1 (R32, R67): the report id at 0, then status, echoed sequence and reply at their offsets. The
offsets of `Params.wf` fill 1 to 6, so the last 0 is never read. -/
def reportByte (p : Params) (status seq : Byte) (reply : Quad) (k : Nat) : Byte :=
  if k = 0 then reportStatusId
  else if k = p.r1StatusOff then status
  else if k = p.r1SeqOff then seq
  else if k = p.r1ReplyOff then reply.b0
  else if k = p.r1ReplyOff + 1 then reply.b1
  else if k = p.r1ReplyOff + 2 then reply.b2
  else if k = p.r1ReplyOff + 3 then reply.b3
  else 0

/-- The answer to `StartRead(1)` (R67): always seven bytes; the echoed sequence is read live from `rxbuf[1]`. -/
def State.statusReport (s : State) : List Byte :=
  (List.range statusReportLen).map (reportByte s.params s.statusByte (s.rxbuf.load seqOff) s.reply)

end Sys2Proof.Machine
end

