-- ==== Sys2Proof/Machine/IspCommand.lean ====
section
/-! DEFINITION. ISP_COMMAND in a single and in a batch frame (R61, R62), and the transaction itself (R44). None of them
looks at a command byte, a response byte or the reset line (R46, R84). -/

namespace Sys2Proof.Machine

/-- ISP_COMMAND.S (R61): one `issueCommand`, its four response bytes stored. -/
def execIspCommandS (c : Quad) (s : State) : Out := .next (s.issueCommand c).storeReply

/-- ISP_COMMAND.B (R62): `count` transactions in ascending slot order, each overwriting the reply; a count of 0 does
nothing. -/
def execIspCommandB (n : Byte) (body : List Byte) (s : State) : Out :=
  .next (s.issueAll (batchTransactions s.params n body))

/-- ISP_TRANSACTION (R44): `issueCommand(c)`; the response is left in `resp` for the caller, which writes `reply`. -/
def execIspTransaction (c : Quad) (s : State) : Out := .next (s.issueCommand c)

end Sys2Proof.Machine
end

