-- ==== Sys2Proof/Machine/ResetDevice.lean ====
section
/-! DEFINITION. RESET_DEVICE (R60): the reset line follows the flag, in a frame of either size. -/

namespace Sys2Proof.Machine

/-- RESET_DEVICE.S (R60): `setReset(f != 0)`; the three later payload bytes are ignored (R34). -/
def execResetDeviceS (f : Byte) (s : State) : Out := .next (s.setReset (resetFlag f))

/-- RESET_DEVICE.B (R60, decision D19): the same on the same byte; the 129 later bytes are ignored. -/
def execResetDeviceB (f : Byte) (s : State) : Out := .next (s.setReset (resetFlag f))

end Sys2Proof.Machine
end

