-- ==== Sys2Proof/Machine/StatusRead.lean ====
section
/-! DEFINITION. The status read (R67) and the empty answer to a read of any other report id (R69). -/

namespace Sys2Proof.Machine

/-- STATUS_READ (R67): the seven bytes of report 1, taken from the state at this moment; nothing else changes (R70). -/
def execStatusRead (s : State) : Out := .next (s.answer s.statusReport)

/-- `StartRead(id)` with `id` other than 1 (R69, decision D14): an empty answer, and nothing changes. -/
def emptyRead (s : State) : Out := .next (s.answer [])

end Sys2Proof.Machine
end

