-- ==== Sys2Proof/Machine/Unknown.lean ====
section
/-! DEFINITION. A complete frame with an unknown opcode (R63): nothing is done. The frame has still been received, so
the status report echoes its sequence byte. -/

namespace Sys2Proof.Machine

/-- UNKNOWN.S (R63, decision D11): no line event, no register written. -/
def execUnknownS (s : State) : Out := .next s

/-- UNKNOWN.B (R63, decision D11): no line event, no register written. -/
def execUnknownB (s : State) : Out := .next s

end Sys2Proof.Machine
end

