-- ==== Sys2Proof/Machine/Dispatch.lean ====
section
/-! DEFINITION. One arm per instruction: the operation each selects (R37, R59). -/

namespace Sys2Proof.Machine

def exec (i : Instr) (s : State) : Host.Outcome State Fault Refusal :=
  match i with
  | .resetDeviceS _ _ f _ _ _ => Sys2Proof.Machine.execResetDeviceS f s
  | .resetDeviceB _ _ f _ => Sys2Proof.Machine.execResetDeviceB f s
  | .ispCommandS _ _ c => Sys2Proof.Machine.execIspCommandS c s
  | .ispCommandB _ _ n body => Sys2Proof.Machine.execIspCommandB n body s
  | .unknownS _ _ _ _ _ _ _ => Sys2Proof.Machine.execUnknownS s
  | .unknownB _ _ _ _ _ => Sys2Proof.Machine.execUnknownB s
  | .statusRead => Sys2Proof.Machine.execStatusRead s
  | .ispTransaction c => Sys2Proof.Machine.execIspTransaction c s

end Sys2Proof.Machine
end

