-- ==== Sys2Proof/Machine/Sequencer.lean ====
section
/-! DEFINITION. The sequencing state of R13 at work: where a dispatch stands, its next transaction, and one phase of
`transferBit` (R42) as one step of the hardware. -/

namespace Sys2Proof.Machine

/-- Enter a dispatch of ISP transactions at its first phase (R59, R13). -/
def State.beginDispatch (s : State) : State :=
  { s with busy := true, txnIdx := 0, byteIdx := 0, bitIdx := 7, phase := .driveData, waitCnt := 0 }

/-- Is the block at the first phase of the first bit of a transaction? -/
def State.atTransactionStart (s : State) : Bool :=
  s.byteIdx == 0 && s.bitIdx == 7 && s.phase == .driveData && s.waitCnt == 0

/-- How many transactions the dispatch in progress has: one in a single frame (R61), the count in a batch (R62). -/
def State.transactionTotal (s : State) : Nat :=
  if s.receiveSize = rxSizeSingle then 1 else batchCount (s.rxbuf.load payloadOff)

/-- The frame offset of transaction `k` of the dispatch in progress: `rxbuf[3..6]` (R61) or slot `k` (R62). -/
def State.transactionBase (s : State) (k : Nat) : Nat :=
  if s.receiveSize = rxSizeSingle then payloadOff else s.params.batchBase + 4 * k

/-- The four command bytes of the transaction in progress, from the receive buffer (R61, R62). -/
def State.transactionBytes (s : State) : List Byte :=
  (List.range 4).map fun j => s.rxbuf.load (s.transactionBase s.txnIdx + j)

/-- The command byte in progress. -/
def State.commandByte (s : State) : Byte := s.rxbuf.load (s.transactionBase s.txnIdx + s.byteIdx)

/-- After a transaction: `reply <- r` (R61, R62), then the next transaction, or the end of the dispatch, where the
sequencing state is idle again (assumption 7). -/
def State.endTransaction (s : State) : State :=
  if s.txnIdx.val + 1 < s.transactionTotal then { s.storeReply with txnIdx := s.txnIdx + 1 }
  else { s.storeReply with txnIdx := 0, busy := false }

/-- After a byte: `r[j] <- rsr` (R43, R44), then the next byte, or the end of the transaction. -/
def State.endByte (s : State) : State :=
  if s.byteIdx.val < 3 then { s.putResp s.byteIdx s.rsr with byteIdx := s.byteIdx + 1 }
  else ({ s.putResp s.byteIdx s.rsr with byteIdx := 0 } : State).endTransaction

/-- After a bit: the next lower bit, or the end of the byte (R43). -/
def State.endBit (s : State) : State :=
  if 0 < s.bitIdx.val then { s with bitIdx := s.bitIdx - 1, phase := .driveData }
  else ({ s with bitIdx := 7, phase := .driveData } : State).endByte

/-- One count of a hold (R42 phases 1 and 4, R79): `Settle` at its first count, phase `next` after `SETTLE_CYCLES`
counts (assumption 16). -/
def State.settleStep (next : Phase) (s : State) : State :=
  if s.waitCnt + 1 < s.params.settleCycles then
    { (if s.waitCnt = 0 then s.wait else s) with waitCnt := s.waitCnt + 1 }
  else { (if s.waitCnt = 0 then s.wait else s) with waitCnt := 0, phase := next }

/-- One step of a dispatch in progress: the phase of R42 the block stands at. -/
def State.phaseStep (s : State) : State :=
  match s.phase with
  | .driveData => { s.setLine .dataOut (s.commandByte.getLsbD s.bitIdx) with phase := .settleLow }
  | .settleLow => s.settleStep .raiseClock
  | .raiseClock => { s.setLine .clock true with phase := .sample }
  | .sample => { s.samplePhase with phase := .settleHigh }
  | .settleHigh => s.settleStep .lowerClock
  | .lowerClock => (s.setLine .clock false).endBit

/-- `n` phase steps, stopping where the dispatch ends. -/
def State.phaseSteps : Nat → State → State
  | 0, s => s
  | n + 1, s => if s.busy then State.phaseSteps n s.phaseStep else s

end Sys2Proof.Machine
end

