-- ==== Sys2Proof/Machine/Run.lean ====
section
/-! DEFINITION. The accumulator and the dispatcher around `exec`: taking a host event (R51 to R55, R67, R69), starting
and running a dispatch (R59, R64), and one step of the machine. -/

namespace Sys2Proof.Machine

/-- The layout of a complete frame: its size is all that tells (R37, R59). -/
def State.frameFormat (s : State) : Option Format :=
  if s.receiveSize = rxSizeSingle then some .single
  else if s.receiveSize = rxSizeBatch then some .batch
  else none

/-- The bytes of the complete frame, `rxbuf[0 .. receiveSize-1]`. -/
def State.frameBytes (s : State) : List Byte := (List.range s.receiveSize).map s.rxbuf.load

/-- `Dispatch()` (R59) in one step: `busy` for the whole of it, run to completion (R64). -/
def dispatchWhole (i : Instr) (s : State) : Out :=
  andThen (exec i (s.setBusy true)) fun t => .next (t.setBusy false)

/-- Start the dispatch of `i`: phase by phase where the model steps so and there is a transaction to clock out, else
in one step (R49; assumption 5). -/
def dispatchInstr (i : Instr) (s : State) : Out :=
  if s.phased && decide (0 < transactionCount i) then .next s.beginDispatch else dispatchWhole i s

/-- Dispatch the complete frame (R59). -/
def dispatchFrame (s : State) : Out :=
  match s.frameFormat with
  | none => .fault (.frameSize s.receiveSize)
  | some f =>
    match decode s.params f s.frameBytes with
    | .ok (i, _) => dispatchInstr i s
    | .error _ => .refused .undecoded

/-- How many bytes of a chunk are accepted: the clamp `min(len, receiveSize - receiveOffset)` (R53). -/
def State.acceptCount (s : State) (bs : List Byte) : Nat := min bs.length (s.receiveSize - s.receiveOffset)

/-- `Data(bs)` (R53, R54): append with clamp; the chunk that stores the frame's last byte dispatches it. -/
def takeData (bs : List Byte) (s : State) : Out :=
  if 0 < s.acceptCount bs then
    if s.receiveOffset + s.acceptCount bs ≤ rxbufLen then
      if s.receiveOffset + s.acceptCount bs = s.receiveSize then dispatchFrame (s.append (bs.take (s.acceptCount bs)))
      else .next (s.append (bs.take (s.acceptCount bs)))
    else .fault (.rxbufIndex (s.receiveOffset + s.acceptCount bs - 1))
  else .next s

/-- `StartRead(id)`: report id 1 selects STATUS_READ (R67); any other id gives the empty answer (R69). -/
def takeRead (id : Byte) (s : State) : Out :=
  match decode s.params .status [id] with
  | .ok (i, _) => exec i s
  | .error _ => emptyRead s

/-- Take one host event to its completion (R25, R51). -/
def takeEvent (e : HostEvent) (s : State) : Out :=
  match e with
  | .startWrite id => .next (s.startWrite id)
  | .data bs => takeData bs s
  | .startRead id => takeRead id s

/-- Take host events one at a time, in their order, each to its completion (R25). -/
def takeEvents : List HostEvent → State → Out
  | [], s => .next s
  | e :: es, s => andThen (takeEvent e s) (takeEvents es)

/-- The transaction in progress in one step: `issueCommand` of its four bytes, then its caller's part (R61, R62). -/
def runTransaction (s : State) : Out :=
  match decode s.params .serial s.transactionBytes with
  | .ok (i, _) => andThen (exec i s) fun t => .next t.endTransaction
  | .error _ => .refused .undecoded

/-- A dispatch in progress goes on: by a whole transaction where the model steps so and stands at the start of one,
else by one phase (assumption 5). No host event is taken (R64). -/
def continueDispatch (s : State) : Out :=
  if !s.phased && s.atTransactionStart then runTransaction s else .next s.phaseStep

/-- One step: the hardware reset while `rst` is 1 (R81); else the dispatch in progress (R64); else the oldest waiting
host event (R51); with none waiting the block is idle (R13). -/
def stepOnce (s : State) : Out :=
  if s.rst then .next s.hardReset
  else if s.busy then continueDispatch s
  else
    match s.hostQueue with
    | [] => .next s
    | e :: es => takeEvent e { s with hostQueue := es }

end Sys2Proof.Machine
end

