-- ==== Sys2Proof/Machine/Fetch.lean ====
section
/-! DEFINITION. Placing one instruction where the next step takes it (assumption 12): a frame is the chunk the host has
ready after its command start; the status read is a waiting `StartRead`; a transaction is the one a dispatch in progress
stands at. -/

namespace Sys2Proof.Machine

/-- Not in reset, not in a dispatch, stepping by whole dispatches: the next step takes the oldest host event. -/
def State.readyForEvent (s : State) : State := { s with rst := false, busy := false, phased := false }

/-- The command start `id` has been taken and its whole frame waits as one chunk. -/
def State.placeFrame (id : Byte) (bs : List Byte) (s : State) : State :=
  { s.readyForEvent.startWrite id with hostQueue := .data bs :: s.hostQueue }

/-- A read of the report whose id is the first byte waits. -/
def State.placeRead (bs : List Byte) (s : State) : State :=
  { s.readyForEvent with hostQueue := .startRead (bs.getD 0 0) :: s.hostQueue }

/-- A dispatch of the single frame `ISP_COMMAND` with the command bytes `bs` stands at its transaction. -/
def State.placeTransaction (bs : List Byte) (s : State) : State :=
  { s.beginDispatch with
    rst := false
    phased := false
    receiveSize := rxSizeSingle
    receiveOffset := rxSizeSingle
    rxbuf := s.rxbuf.storeAll opcOff (s.params.opcIspCommand :: bs) }

/-- Place the table number `w` of `nbits` bits as the next instruction. -/
def State.placeTableWord (s : State) (nbits w : Nat) : State :=
  match tableFormat s.params nbits w with
  | .single => s.placeFrame reportSingleId (tableBytes .single w)
  | .batch => s.placeFrame reportBatchId (tableBytes .batch w)
  | .status => s.placeRead (tableBytes .status w)
  | .serial => s.placeTransaction (tableBytes .serial w)

end Sys2Proof.Machine
end

