-- ==== Sys2Proof/Machine/HostCommands.lean ====
section
/-! DEFINITION. The notation of R40 for host activity: each command is a fixed sequence of host events; and the two
transport primitives of R51. -/

namespace Sys2Proof.Machine

/-- `setFeatureReport(bytes)` in the given chunks: one `StartWrite`, then one `Data` per chunk (R51). -/
def writeReport (id : Byte) (chunks : List (List Byte)) : List HostEvent :=
  .startWrite id :: chunks.map .data

/-- `bs` cut into chunks of `n` bytes, the last one as long as what is left, in at most `fuel` of them. DESIGN CHOICE: R51
does not fix how the transport cuts a write; that every chunk but the last is full is one cut among those it allows
(assumption 25). -/
def cutChunks (n : Nat) : Nat → List Byte → List (List Byte)
  | 0, _ => []
  | _ + 1, [] => []
  | fuel + 1, b :: bs => (b :: bs).take n :: cutChunks n fuel ((b :: bs).drop n)

/-- `setFeatureReport(bytes)` by a transport that fills each chunk to `MAX_CHUNK` bytes (R3, R51). DESIGN CHOICE: this cut
is the model's (assumption 25); `writeReport` takes any other. -/
def hostWriteReport (p : Params) (id : Byte) (bs : List Byte) : List HostEvent :=
  writeReport id (cutChunks p.maxChunk bs.length bs)

/-- `W2 seq op p0 p1 p2 p3` (R40). -/
def hostW2 (seq op p0 p1 p2 p3 : Byte) : List HostEvent :=
  writeReport reportSingleId [[reportSingleId, seq, op, p0, p1, p2, p3]]

/-- `RESET_DEVICE seq flag` (R40). -/
def hostResetDevice (p : Params) (seq flag : Byte) : List HostEvent := hostW2 seq p.opcResetDevice flag 0 0 0

/-- `ISP_COMMAND seq c0 c1 c2 c3` (R40). -/
def hostIspCommand (p : Params) (seq : Byte) (c : Quad) : List HostEvent :=
  hostW2 seq p.opcIspCommand c.b0 c.b1 c.b2 c.b3

/-- The 133 bytes of `ISP_BATCH seq n {t0; t1; ...}`: the transactions from frame offset 4 on, padded with 0x00 (R40). -/
def hostBatchFrame (p : Params) (seq n : Byte) (ts : List Quad) : List Byte :=
  ([reportBatchId, seq, p.opcIspCommand, n] ++ (ts.map Quad.toList).flatten
    ++ List.replicate batchBodyLen 0).take rxSizeBatch

/-- `ISP_BATCH seq n {t0; t1; ...}` (R40). -/
def hostIspBatch (p : Params) (seq n : Byte) (ts : List Quad) : List HostEvent :=
  writeReport reportBatchId [hostBatchFrame p seq n ts]

/-- `STATUS` (R40): `getFeatureReport(1)`. -/
def hostStatus : List HostEvent := [.startRead reportStatusId]

/-- The host's `sendCommand(opcode, payload)` (R40): `W2` followed by `STATUS`. -/
def hostSendCommand (seq op p0 p1 p2 p3 : Byte) : List HostEvent := hostW2 seq op p0 p1 p2 p3 ++ hostStatus

end Sys2Proof.Machine
end

