-- ==== Sys2Proof/Machine/Ports.lean ====
section
/-! DEFINITION. The ports of R16: the outputs as functions of the state, the inputs as an operation that offers host
events. The ports add no behaviour (R16). `isp_data_in` is the state's `targetIn` (assumption 17). -/

namespace Sys2Proof.Machine

/-- The input ports of R16 in one cycle, but for `clk` and `isp_data_in`. -/
structure PortIn where
  rst : Bool
  hCmdValid : Bool
  hCmdRead : Bool
  hCmdId : Byte
  hWrValid : Bool
  hWrData : Byte
  deriving DecidableEq, Repr

/-- The output ports of R16. -/
structure PortOut where
  ispDataOut : Level
  ispClock : Level
  ispResetN : Level
  hReady : Bool
  hWrDone : Bool
  hRdLen : BitVec 3
  hRdData : BitVec 56
  deriving DecidableEq, Repr

/-- The host events one cycle offers: the command start first, then the data byte (R75). -/
def portEvents (p : PortIn) : List HostEvent :=
  (if p.hCmdValid then [if p.hCmdRead then .startRead p.hCmdId else .startWrite p.hCmdId] else [])
    ++ (if p.hWrValid then [.data [p.hWrData]] else [])

/-- The outside offers one cycle's inputs: the events wait behind those already waiting (R51, R75). -/
def State.offer (p : PortIn) (s : State) : State :=
  { s with rst := p.rst, hostQueue := s.hostQueue ++ portEvents p }

/-- Report byte `k` in bits `[8k+7:8k]` (R16, `h_rd_data`), for an answer of seven bytes. -/
def packAnswer (a : List Byte) : BitVec 56 :=
  a.foldr (fun b acc => (acc <<< 8) ||| b.setWidth 56) 0

/-- The answer on the read port: the one given last, empty before the first. -/
def State.lastAnswer (s : State) : List Byte := s.answers.headD []

/-- `h_rd_data` (R16): the bytes of the answer; while the answer is empty, before the first read and after a read of
another report (R69), the spec gives the length 0 and no data, so the 56 bits are a free value (assumption 24). -/
def State.readData (s : State) : BitVec 56 :=
  match s.lastAnswer with
  | [] => Config.readDataWhenEmpty s.answers.length
  | b :: bs => packAnswer (b :: bs)

/-- The output ports (R16). -/
def State.ports (s : State) : PortOut where
  ispDataOut := s.lineDataOut
  ispClock := s.lineClock
  ispResetN := s.lineReset
  hReady := !s.busy
  hWrDone := decide (s.receiveOffset = s.receiveSize) && !s.busy
  hRdLen := BitVec.ofNat 3 s.lastAnswer.length
  hRdData := s.readData

end Sys2Proof.Machine
end

