-- ==== Sys2Proof/Machine/LineTrace.lean ====
section
/-! DEFINITION. The line-event trace as the spec writes it (R49): in order, oldest first, and the function `traceOf`
that R42 to R44 determine, with the bytes that samples stand for (R21, R43). -/

namespace Sys2Proof.Machine

/-- The line-event trace in the order of R49, oldest event first. -/
def State.lineEvents (s : State) : List LineEvent := s.trace.reverse

/-- The bits of a byte in the order they are sent, bit 7 first (R21). -/
def byteBits (b : Byte) : List Level :=
  [b.getLsbD 7, b.getLsbD 6, b.getLsbD 5, b.getLsbD 4, b.getLsbD 3, b.getLsbD 2, b.getLsbD 1, b.getLsbD 0]

/-- The 32 bits of a transaction in the order they are sent (R33). -/
def quadBits (c : Quad) : List Level := byteBits c.b0 ++ byteBits c.b1 ++ byteBits c.b2 ++ byteBits c.b3

/-- The six events of one bit (R42). -/
def bitEvents (v s : Level) : List LineEvent :=
  [.dataOut v, .settle, .clock true, .sample s, .settle, .clock false]

/-- The events of sending the bits `vs` under the samples `ss`. -/
def bitsEvents (vs ss : List Level) : List LineEvent := (List.zipWith bitEvents vs ss).flatten

/-- `traceOf(c, ss)` (R49): the 192 events of `issueCommand(c)` under the 32 samples `ss`. -/
def traceOf (c : Quad) (ss : List Level) : List LineEvent := bitsEvents (quadBits c) ss

/-- The byte whose bit 7 is the first of eight samples and whose bit 0 is the eighth (R21, R43). -/
def byteOfSamples (ss : List Level) : Byte := ss.foldl (fun r s => r * 2 + (if s then 1 else 0)) 0

/-- The response of a transaction under its 32 samples: byte `j` from the samples of command byte `j` (R44). -/
def responseOf (ss : List Level) : Quad :=
  ⟨byteOfSamples (ss.take 8), byteOfSamples ((ss.drop 8).take 8), byteOfSamples ((ss.drop 16).take 8),
    byteOfSamples ((ss.drop 24).take 8)⟩

/-- The levels the samples of a trace gave, in order. -/
def samplesIn (tr : List LineEvent) : List Level :=
  tr.filterMap fun e => match e with
    | .sample s => some s
    | .dataOut _ => none
    | .clock _ => none
    | .reset _ => none
    | .settle => none

/-- How many settle delays a trace holds (R92). -/
def settleCount (tr : List LineEvent) : Nat := tr.countP (· == .settle)

/-- How many rising clock edges a trace holds (R48, R92). -/
def risingEdges (tr : List LineEvent) : Nat := tr.countP (· == .clock true)

/-- The least time a trace takes, in nanoseconds: its settle delays times `T_SETTLE` (R92, R93). -/
def leastDurationNs (p : Params) (tr : List LineEvent) : Nat := settleCount tr * p.tSettleNs

end Sys2Proof.Machine
end

