-- ==== Sys2Proof/Safety.lean ====
section
/-! DEFINITION. What counts as a legal state of the block (R14, and the ranges of R10, R11 and R13): every state the
hardware can be in meets it, and a machine that meets it never stops. -/

namespace Sys2Proof.Machine

/-- The invariant of the block. -/
structure State.Inv (s : State) : Prop where
  /-- The parameters meet their constraints (R3). -/
  params : s.params.wf = true
  /-- The receive buffer is in canonical form, its indices within 0 to 132 (R9, R20). -/
  rxbuf : s.rxbuf.wf = true
  /-- `receiveSize` ∈ {0, 7, 133} (R11, R14). -/
  size : s.receiveSize = 0 ∨ s.receiveSize = rxSizeSingle ∨ s.receiveSize = rxSizeBatch
  /-- `receiveOffset ≤ receiveSize` (R14). -/
  offset : s.receiveOffset ≤ s.receiveSize
  /-- `line[CLOCK]` = 0 whenever `busy` = 0 (R14, R48). -/
  quiet : s.busy = false → s.lineClock = false
  /-- Outside a dispatch the sequencing state is idle (R17; assumption 7). -/
  idle : s.busy = false → s.atTransactionStart = true ∧ s.txnIdx = 0
  /-- A dispatch in progress is that of a complete `ISP_COMMAND` frame, at one of its transactions (R13, R54, R59). -/
  frame : s.busy = true → s.receiveOffset = s.receiveSize ∧ s.receiveSize ≠ 0
    ∧ s.rxbuf.load opcOff = s.params.opcIspCommand ∧ s.txnIdx.val < s.transactionTotal
  /-- In a dispatch `CLOCK` is high exactly between its rise and its fall (R42). -/
  clock : s.busy = true → s.lineClock = s.phase.clockHigh
  /-- `waitCnt` counts `SETTLE_CYCLES` in the two holds, and is 0 elsewhere (R79). -/
  wait : s.waitCnt < s.params.settleCycles ∧ (s.phase.isSettle = false → s.waitCnt = 0)

/-- A state that stands ready to take a host event in whole dispatches: legal, no dispatch in progress, stepping by
whole dispatches. -/
structure State.Quiescent (s : State) : Prop where
  inv : s.Inv
  notBusy : s.busy = false
  whole : s.phased = false

/-- `n` steps one after another. -/
def stepMany : Nat → State → Out
  | 0, s => .next s
  | n + 1, s => andThen (step s) (stepMany n)

/-- The levels `ss` are what the target's list gives as the next `n` samples, as far as the list goes (R28). -/
def State.Presents (s : State) (n : Nat) (ss : List Level) : Prop :=
  ss.length = n ∧ ss.take s.targetIn.length = s.targetIn.take n

/-- A line event with the level a sample read left out (R46). -/
def eraseSample : LineEvent → LineEvent
  | .sample _ => .sample false
  | .dataOut v => .dataOut v
  | .clock v => .clock v
  | .reset v => .reset v
  | .settle => .settle

/-- The answer `a` is a status report with these contents, at the offsets of the parameters (R32, R67). -/
def IsReport (p : Params) (status seq : Byte) (reply : Quad) (a : List Byte) : Prop :=
  a.length = 7 ∧ a[0]? = some 0x01 ∧ a[p.r1StatusOff]? = some status ∧ a[p.r1SeqOff]? = some seq
    ∧ a[p.r1ReplyOff]? = some reply.b0 ∧ a[p.r1ReplyOff + 1]? = some reply.b1
    ∧ a[p.r1ReplyOff + 2]? = some reply.b2 ∧ a[p.r1ReplyOff + 3]? = some reply.b3

/-- The status byte of a reset-line level: held when the line is low (R68). -/
def statusOfLine (p : Params) (l : Level) : Byte :=
  match l with
  | false => p.statusAsserted
  | true => p.statusDeasserted

end Sys2Proof.Machine
end

