-- ==== Sys2Proof/Certificates/Slice0/Obligations.lean ====
section
/-! DEFINITION. The statements for the provers. OBLIGATIONS.json lists them with the rules of spec/ they rest on. A
statement that rests on one of the spec's own decisions D<n> or on a sentence the spec marks as derived says so. -/

open Sys2Proof Sys2Proof.Machine

/-! ## Encoding and decoding -/

/-- R30, R31, R33, R37: for every well-formed instruction, with every operand at every value, decoding its bytes gives
it back, whatever follows. The opcodes are used through their distinctness only (R3, R36). -/
def Obligations.DecodeOfEncodeIsTheInstruction : Prop :=
  ∀ (p : Params) (i : Instr) (rest : List Byte), p.wf = true → i.wf p = true →
    decode p i.format (encode p i ++ rest) = .ok (i, rest)

/-- R30, R31, R33: the bytes an instruction was decoded from are its encoding and the bytes left over, and it is well
formed: no byte of a frame is dropped. -/
def Obligations.EncodeOfDecodeIsTheBytes : Prop :=
  ∀ (p : Params) (f : Format) (bs rest : List Byte) (i : Instr), decode p f bs = .ok (i, rest) →
    i.format = f ∧ i.wf p = true ∧ encode p i ++ rest = bs

/-- R38, R39, R69: the decoder refuses bytes exactly when they are shorter than their layout, or when a read names a
report other than 1. No frame of full length is refused, whatever its bytes. -/
def Obligations.DecodeRefusesOnlyShortBytesAndOtherReports : Prop :=
  ∀ (p : Params) (f : Format) (bs : List Byte),
    (∃ e, decode p f bs = .error e) ↔
      (bs.length < formatLength f ∨ (f = .status ∧ bs.head? ≠ some 0x01))

/-- R37: a complete frame selects its operation by its opcode byte `rxbuf[2]` and its size only; the report id byte
`rxbuf[0]` selects nothing; the command start's report id set the size; the device-to-host operation is selected by a
read of report 1. -/
def Obligations.OpcodeAndSizeSelectTheOperation : Prop :=
  (∀ s : State, s.receiveSize = 7 → dispatchFrame s = dispatchInstr
      (if s.rxbuf.load 2 = s.params.opcResetDevice then
        .resetDeviceS (s.rxbuf.load 0) (s.rxbuf.load 1) (s.rxbuf.load 3) (s.rxbuf.load 4) (s.rxbuf.load 5)
          (s.rxbuf.load 6)
      else if s.rxbuf.load 2 = s.params.opcIspCommand then
        .ispCommandS (s.rxbuf.load 0) (s.rxbuf.load 1)
          ⟨s.rxbuf.load 3, s.rxbuf.load 4, s.rxbuf.load 5, s.rxbuf.load 6⟩
      else
        .unknownS (s.rxbuf.load 0) (s.rxbuf.load 1) (s.rxbuf.load 2) (s.rxbuf.load 3) (s.rxbuf.load 4)
          (s.rxbuf.load 5) (s.rxbuf.load 6)) s)
  ∧ (∀ s : State, s.receiveSize = 133 → dispatchFrame s = dispatchInstr
      (if s.rxbuf.load 2 = s.params.opcResetDevice then
        .resetDeviceB (s.rxbuf.load 0) (s.rxbuf.load 1) (s.rxbuf.load 3)
          ((List.range 129).map fun k => s.rxbuf.load (4 + k))
      else if s.rxbuf.load 2 = s.params.opcIspCommand then
        .ispCommandB (s.rxbuf.load 0) (s.rxbuf.load 1) (s.rxbuf.load 3)
          ((List.range 129).map fun k => s.rxbuf.load (4 + k))
      else
        .unknownB (s.rxbuf.load 0) (s.rxbuf.load 1) (s.rxbuf.load 2) (s.rxbuf.load 3)
          ((List.range 129).map fun k => s.rxbuf.load (4 + k))) s)
  ∧ (∀ s : State, (s.startWrite 0x02).receiveSize = 7 ∧ (s.startWrite 0x03).receiveSize = 133)
  ∧ (∀ s : State, takeRead 0x01 s = exec .statusRead s)

/-- Sanity (95_test_vectors.md V6 frames, decision D3's default opcodes): words written out from the layouts decode to
the instructions they stand for. How a bare number is read is the model's choice: which row it means (assumption 13); a
seven-byte or four-byte row has frame offset 0 in its most significant byte, and of a whole batch frame offsets 0 to 3
are such a number in bits 31 to 0, the later bytes counting on from bit 32 (assumption 12). -/
def Obligations.FramesOfTheVectorsDecode : Prop :=
  decodeTableWord 56 0x02100101000000 = some (.resetDeviceS 0x02 0x10 0x01 0x00 0x00 0x00)
  ∧ decodeTableWord 56 0x021202AC530000 = some (.ispCommandS 0x02 0x12 ⟨0xAC, 0x53, 0x00, 0x00⟩)
  ∧ decodeTableWord 56 0x02157F01020304 = some (.unknownS 0x02 0x15 0x7F 0x01 0x02 0x03 0x04)
  ∧ decodeTableWord 32 0x03180180 = some (.resetDeviceB 0x03 0x18 0x80 (List.replicate 129 0x00))
  ∧ decodeTableWord 32 0x030102E2 = some (.ispCommandB 0x03 0x01 0xE2 (List.replicate 129 0x00))
  ∧ decodeTableWord 1064 0x03197F00 = some (.unknownB 0x03 0x19 0x7F 0x00 (List.replicate 129 0x00))
  ∧ decodeTableWord 56 0x01012A00AC5300 = some .statusRead
  ∧ decodeTableWord 32 0xAC530000 = some (.ispTransaction ⟨0xAC, 0x53, 0x00, 0x00⟩)

/-! ## The signal driver -/

/-- R41 (decision D21: the event is appended also when the line already has the level): `SetLine` drives exactly the
line named and appends exactly its event. -/
def Obligations.SetLineDrivesTheLineAndRecordsIt : Prop :=
  ∀ (v : Level) (s : State),
    s.setLine .dataOut v = { s with lineDataOut := v, trace := .dataOut v :: s.trace }
    ∧ s.setLine .clock v = { s with lineClock := v, trace := .clock v :: s.trace }
    ∧ s.setLine .reset v = { s with lineReset := v, trace := .reset v :: s.trace }
    ∧ (s.setLine .dataOut v).lineEvents = s.lineEvents ++ [.dataOut v]

/-- R42 (decisions D16 and D22): one bit is six steps in this order; the sample enters `rsr` at bit 0 and the old bit 7
is discarded; one draw is consumed, the target's next level where its list gives one; nothing else changes. -/
def Obligations.TransferBitPerformsTheSixSteps : Prop :=
  ∀ (v : Level) (s : State), ∃ x : Level, s.Presents 1 [x] ∧
    s.transferBit v = { s with
      lineDataOut := v, lineClock := false, rsr := BitVec.ofNat 8 (2 * s.rsr.toNat + x.toNat),
      trace := [.clock false, .settle, .sample x, .clock true, .settle, .dataOut v] ++ s.trace,
      targetIn := s.targetIn.drop 1, draws := s.draws + 1 }

/-- R43, R21 (the result is the spec's derived sentence; response order is decision D16): a byte is sent most
significant bit first over eight cycles, and the result is the byte whose bit `k` is the sample of cycle `7 - k`,
whatever `rsr` held. -/
def Obligations.TransferByteIsMostSignificantBitFirst : Prop :=
  ∀ (b : Byte) (s : State), ∃ ss : List Level, s.Presents 8 ss ∧
    (∀ k, k < 8 → some ((s.transferByte b).rsr.getLsbD k) = ss[7 - k]?) ∧
    s.transferByte b = { s with
      lineDataOut := b.getLsbD 0, lineClock := false, rsr := (s.transferByte b).rsr,
      trace := ((List.zipWith bitEvents
        [b.getLsbD 7, b.getLsbD 6, b.getLsbD 5, b.getLsbD 4, b.getLsbD 3, b.getLsbD 2, b.getLsbD 1, b.getLsbD 0]
        ss).flatten).reverse ++ s.trace,
      targetIn := s.targetIn.drop 8, draws := s.draws + 8 }

/-- R33, R21: in the trace of a transaction cycle `n` carries bit `7 - (n mod 8)` of command byte `n div 8`, and the
sample of cycle `n` is bit `7 - (n mod 8)` of response byte `n div 8`. -/
def Obligations.CycleCarriesItsBit : Prop :=
  ∀ (c : Quad) (ss : List Level) (n : Fin 4) (k : Fin 8), ss.length = 32 →
    (traceOf c ss)[6 * (8 * n.val + k.val)]? = some (.dataOut ((c.get n).getLsbD (7 - k.val)))
    ∧ (traceOf c ss)[6 * (8 * n.val + k.val) + 3]? = some (.sample (((responseOf ss).get n).getLsbD (7 - k.val)))

/-- R44: ISP_TRANSACTION completes in every state, with the reset line either way: four bytes are sent, response byte
`j` is made of the eight samples taken while command byte `j` was sent, 192 events are appended of which 32 are samples
and 64 settle delays, and `reply` is not written. Everything not named is unchanged. The bit order within a response
byte (`responseOf`) is not R44's: it is decision D16 in R42, and R43's derived sentence. -/
def Obligations.IspTransactionCompletes : Prop :=
  ∀ (c : Quad) (s : State), ∃ ss : List Level, s.Presents 32 ss ∧
    exec (.ispTransaction c) s = .next { s with
      lineDataOut := c.b3.getLsbD 0, lineClock := false, rsr := (responseOf ss).b3, resp := responseOf ss,
      trace := (traceOf c ss).reverse ++ s.trace, targetIn := s.targetIn.drop 32, draws := s.draws + 32 }
    ∧ (traceOf c ss).length = 192 ∧ samplesIn (traceOf c ss) = ss ∧ settleCount (traceOf c ss) = 64

/-- R45: `setReset` asserts by driving the reset line low and deasserts by driving it high; one event, nothing else. -/
def Obligations.SetResetDrivesTheResetLine : Prop :=
  ∀ s : State, s.setReset true = { s with lineReset := false, trace := .reset false :: s.trace }
    ∧ s.setReset false = { s with lineReset := true, trace := .reset true :: s.trace }

/-- R46: the events of a transaction, the levels sampled left out, are the same whatever the target presents, and
their number is the same for every command. -/
def Obligations.SignalingDoesNotDependOnTheTarget : Prop :=
  ∀ (c d : Quad) (s : State) (ls : List Level) (n : Nat),
    (({ s with targetIn := ls, draws := n } : State).issueCommand c).lineEvents.map eraseSample
      = (s.issueCommand c).lineEvents.map eraseSample
    ∧ (s.issueCommand c).lineEvents.length = (s.issueCommand d).lineEvents.length

/-! ## The commands -/

/-- R60 (decision D6 for the flag, D19 for the batch frame): RESET_DEVICE completes in every state, in a frame of
either size; a nonzero flag drives the reset line low, a zero flag high; one event; nothing else changes. -/
def Obligations.ResetDeviceCompletes : Prop :=
  ∀ (r q f x1 x2 x3 : Byte) (body : List Byte) (s : State),
    exec (.resetDeviceS r q f x1 x2 x3) s
        = .next { s with lineReset := decide (f = 0x00), trace := .reset (decide (f = 0x00)) :: s.trace }
    ∧ exec (.resetDeviceB r q f body) s
        = .next { s with lineReset := decide (f = 0x00), trace := .reset (decide (f = 0x00)) :: s.trace }

/-- R61: ISP_COMMAND in a single frame completes in every state: one transaction, its four response bytes stored in
`reply`; the reset line is not touched and not consulted; everything not named is unchanged. The bit order within a
response byte (`responseOf`) is not R61's: it is decision D16 in R42, and R43's derived sentence. -/
def Obligations.IspSingleStoresItsReply : Prop :=
  ∀ (r q : Byte) (c : Quad) (s : State), ∃ ss : List Level, s.Presents 32 ss ∧
    exec (.ispCommandS r q c) s = .next { s with
      lineDataOut := c.b3.getLsbD 0, lineClock := false, rsr := (responseOf ss).b3, resp := responseOf ss,
      reply := responseOf ss, trace := (traceOf c ss).reverse ++ s.trace,
      targetIn := s.targetIn.drop 32, draws := s.draws + 32 }
    ∧ (traceOf c ss).length = 192

/-- R62, R35: ISP_COMMAND in a batch frame completes in every state with legal parameters: `count = payload[0] & 0x1F`
transactions of the slots at frame offsets `BATCH_BASE + 4i`, in ascending order, back to back, 192 events each; only
the last reply survives; a count of 0 changes nothing. Everything not named is unchanged. The bit order within a
response byte (`responseOf`) is not R62's: it is decision D16 in R42, and R43's derived sentence. -/
def Obligations.IspBatchKeepsTheLastReply : Prop :=
  ∀ (r q n : Byte) (body : List Byte) (s : State), s.params.wf = true →
    ∃ (cs : List Quad) (sss : List (List Level)),
      cs.length = n.toNat % 32
      ∧ (∀ i, i < n.toNat % 32 → cs[i]? = some
          ⟨(encode s.params (.ispCommandB r q n body)).getD (s.params.batchBase + 4 * i) 0,
            (encode s.params (.ispCommandB r q n body)).getD (s.params.batchBase + 4 * i + 1) 0,
            (encode s.params (.ispCommandB r q n body)).getD (s.params.batchBase + 4 * i + 2) 0,
            (encode s.params (.ispCommandB r q n body)).getD (s.params.batchBase + 4 * i + 3) 0⟩)
      ∧ sss.length = cs.length ∧ (∀ ss ∈ sss, ss.length = 32)
      ∧ s.Presents (32 * cs.length) sss.flatten
      ∧ exec (.ispCommandB r q n body) s = .next { s with
          lineDataOut := (cs.getLast?.map fun c => c.b3.getLsbD 0).getD s.lineDataOut
          lineClock := if cs = [] then s.lineClock else false
          rsr := (sss.getLast?.map fun ss => (responseOf ss).b3).getD s.rsr
          resp := (sss.getLast?.map responseOf).getD s.resp
          reply := (sss.getLast?.map responseOf).getD s.reply
          trace := ((List.zipWith traceOf cs sss).flatten).reverse ++ s.trace
          targetIn := s.targetIn.drop (32 * cs.length)
          draws := s.draws + 32 * cs.length }
      ∧ ((List.zipWith traceOf cs sss).flatten).length = 192 * cs.length
      ∧ settleCount (List.zipWith traceOf cs sss).flatten = 64 * cs.length

/-- R63 (decision D11): a frame with an unknown opcode completes in every state and does nothing. -/
def Obligations.UnknownOpcodeDoesNothing : Prop :=
  ∀ (r q o x0 x1 x2 x3 : Byte) (body : List Byte) (s : State),
    exec (.unknownS r q o x0 x1 x2 x3) s = .next s ∧ exec (.unknownB r q o x0 body) s = .next s

/-- R67, R68, R70 (decisions D4, D5, D13, D28): STATUS_READ completes in every state with legal parameters: its answer
is seven bytes, the report id, the status byte of the reset line, the sequence byte `rxbuf[1]` and the reply; nothing
of the block changes. -/
def Obligations.StatusReadReportsTheState : Prop :=
  ∀ s : State, s.params.wf = true → ∃ a : List Byte,
    exec .statusRead s = .next { s with answers := a :: s.answers }
    ∧ IsReport s.params (statusOfLine s.params s.lineReset) (s.rxbuf.load 1) s.reply a

/-- R69 (decision D14): a read of a report other than 1 gives the empty answer and changes nothing. -/
def Obligations.ReadOfOtherReportsIsEmpty : Prop :=
  ∀ (id : Byte) (s : State), id ≠ 0x01 → takeRead id s = .next { s with answers := [] :: s.answers }

/-- R70 (the spec's derived rule): two status reads with nothing between them give equal bytes. -/
def Obligations.StatusReadIsRepeatable : Prop :=
  ∀ (s t u : State), exec .statusRead s = .next t → exec .statusRead t = .next u →
    ∃ a, u = { s with answers := a :: a :: s.answers } ∧ t = { s with answers := a :: s.answers }

/-- R65 (the spec's derived rule): no instruction writes `rxbuf`, `receiveOffset` or `receiveSize`; every byte of the
buffer reads as before. The parameters stay too (R83). That `exec` leaves R13's registers `busy`, `txnIdx`, `byteIdx`,
`bitIdx`, `phase` and `waitCnt` alone is not R65's but the model's choice: `exec` is the whole effect in one step
(assumption 5), and what these registers hold after a dispatch is the sequencer's (assumption 7). `hostQueue`, `rst` and
`phased` are the model's own fields (assumptions 4, 8 and 5). -/
def Obligations.InstructionsLeaveTheAccumulator : Prop :=
  ∀ (i : Instr) (s t : State), exec i s = .next t →
    (∀ k, t.rxbuf.load k = s.rxbuf.load k) ∧ t.rxbuf = s.rxbuf
    ∧ t.receiveOffset = s.receiveOffset ∧ t.receiveSize = s.receiveSize
    ∧ t.params = s.params ∧ t.busy = s.busy ∧ t.txnIdx = s.txnIdx ∧ t.byteIdx = s.byteIdx ∧ t.bitIdx = s.bitIdx
    ∧ t.phase = s.phase ∧ t.waitCnt = s.waitCnt ∧ t.rst = s.rst ∧ t.hostQueue = s.hostQueue ∧ t.phased = s.phased

/-- R8, R66 (the spec's derived rule): an instruction that changes `reply` is an ISP_COMMAND single frame, or an
ISP_COMMAND batch frame whose count is not 0. -/
def Obligations.OnlyIspCommandsChangeTheReply : Prop :=
  ∀ (i : Instr) (s t : State), exec i s = .next t → t.reply ≠ s.reply →
    (∃ r q c, i = .ispCommandS r q c) ∨ (∃ r q n body, i = .ispCommandB r q n body ∧ n.toNat % 32 ≠ 0)

/-- R28, R92 (the durations are the spec's derived table): an instruction consumes 32 draws, 32 rising clock edges and
64 settle delays for each transaction it performs, and none otherwise. -/
def Obligations.CostPerTransaction : Prop :=
  ∀ (i : Instr) (s t : State), exec i s = .next t →
    t.draws = s.draws + 32 * transactionCount i
    ∧ risingEdges t.lineEvents = risingEdges s.lineEvents + 32 * transactionCount i
    ∧ settleCount t.lineEvents = settleCount s.lineEvents + 64 * transactionCount i
    ∧ leastDurationNs s.params t.lineEvents
        = leastDurationNs s.params s.lineEvents + 64 * transactionCount i * s.params.tSettleNs

/-! ## The accumulator -/

/-- R52 (decisions D8 and D10): a step that takes a command start sets the size its report id gives, 0 for an undefined
id, and the offset to 0, discarding a frame in progress; nothing else changes. -/
def Obligations.StartWriteArmsTheAccumulator : Prop :=
  ∀ (id : Byte) (es : List HostEvent) (s : State), s.rst = false → s.busy = false →
    s.hostQueue = .startWrite id :: es →
    step s = .next { s with
      hostQueue := es, receiveSize := if id = 0x02 then 7 else if id = 0x03 then 133 else 0, receiveOffset := 0 }

/-- R53: `Data` stores the first `n = min(len, receiveSize - receiveOffset)` bytes at `receiveOffset` and on, drops the
rest, leaves every other byte of the buffer, and dispatches exactly when `n > 0` and the frame is then complete. -/
def Obligations.DataAppendsWithClamp : Prop :=
  ∀ (bs : List Byte) (s : State), s.Inv → ∃ m : Memory,
    m.wf = true
    ∧ (∀ k, m.load k =
        if s.receiveOffset ≤ k ∧ k < s.receiveOffset + min bs.length (s.receiveSize - s.receiveOffset) then
          bs.getD (k - s.receiveOffset) 0
        else s.rxbuf.load k)
    ∧ takeData bs s =
        (if 0 < min bs.length (s.receiveSize - s.receiveOffset)
            ∧ s.receiveOffset + min bs.length (s.receiveSize - s.receiveOffset) = s.receiveSize then
          dispatchFrame { s with
            rxbuf := m
            receiveOffset := s.receiveOffset + min bs.length (s.receiveSize - s.receiveOffset) }
        else .next { s with
            rxbuf := m
            receiveOffset := s.receiveOffset + min bs.length (s.receiveSize - s.receiveOffset) })

/-- R55 (decision D9): after a completed frame, and before any command start, every further chunk is dropped and
nothing is dispatched. -/
def Obligations.DataAfterCompletionIsDropped : Prop :=
  ∀ (bs : List Byte) (s : State), s.receiveOffset = s.receiveSize → takeData bs s = .next s

/-- R56 (the spec's derived law): however a write is cut into chunks, the state after the last chunk is that of one
chunk with all its bytes. -/
def Obligations.ChunkingDoesNotMatter : Prop :=
  ∀ (chunks : List (List Byte)) (s : State), s.Quiescent →
    takeEvents (chunks.map .data) s = takeData chunks.flatten s

/-- R3, R51, R56 (the spec's derived law; R3's `MAX_CHUNK` is an OPEN parameter, assumption 23): a write cut into chunks of
at most `MAX_CHUNK` bytes does what one chunk with all its bytes does, for every `MAX_CHUNK`. The cut of
`hostWriteReport`, every chunk but the last full, is the model's choice (assumption 25); any other cut is
`ChunkingDoesNotMatter`'s. -/
def Obligations.MaxChunkDoesNotMatter : Prop :=
  ∀ (id : Byte) (bs : List Byte) (s : State), s.Quiescent →
    (∀ c, HostEvent.data c ∈ hostWriteReport s.params id bs → c.length ≤ s.params.maxChunk)
    ∧ takeEvents (hostWriteReport s.params id bs) s = takeEvents (writeReport id [bs]) s

/-- R27, R39, R54 (R27's conclusion is the spec's derived sentence): a whole report write runs exactly the instruction
its own bytes decode to, whatever the buffer held before and whatever frame was in progress. -/
def Obligations.WholeReportRunsItsInstruction : Prop :=
  ∀ (id : Byte) (f : Format) (bs : List Byte) (s : State), s.Quiescent →
    ((id = 0x02 ∧ f = .single ∧ bs.length = 7) ∨ (id = 0x03 ∧ f = .batch ∧ bs.length = 133)) →
    ∃ i : Instr, decode s.params f bs = .ok (i, [])
      ∧ takeEvents [.startWrite id, .data bs] s
        = dispatchWhole i { s with
            rxbuf := s.rxbuf.storeAll 0 bs, receiveSize := bs.length, receiveOffset := bs.length }

/-! ## The machine -/

/-- R59, R64: a step that takes the chunk completing a frame is `exec` of the instruction the frame's bytes decode to,
with `busy` set before and cleared after it; where the model steps phase by phase and the instruction has a transaction,
the step enters its dispatch instead (assumption 5). -/
def Obligations.StepRunsTheDecodedFrame : Prop :=
  ∀ (bs rest : List Byte) (es : List HostEvent) (f : Format) (i : Instr) (s s1 : State),
    s.rst = false → s.busy = false → s.hostQueue = .data bs :: es →
    0 < s.acceptCount bs → s.receiveOffset + s.acceptCount bs = s.receiveSize →
    s1 = ({ s with hostQueue := es } : State).append (bs.take (s.acceptCount bs)) →
    s1.frameFormat = some f → decode s1.params f s1.frameBytes = .ok (i, rest) →
    step s = if s.phased = true ∧ 0 < transactionCount i then .next s1.beginDispatch
      else andThen (exec i (s1.setBusy true)) fun t => .next (t.setBusy false)

/-- R67: a step that takes a read is `exec` of the instruction its report id decodes to. -/
def Obligations.StepRunsTheDecodedRead : Prop :=
  ∀ (id : Byte) (rest : List Byte) (es : List HostEvent) (i : Instr) (s : State),
    s.rst = false → s.busy = false → s.hostQueue = .startRead id :: es →
    decode s.params .status [id] = .ok (i, rest) →
    step s = exec i { s with hostQueue := es }

/-- R44, R61, R62: a step that stands at a transaction of a dispatch in progress is `exec` of the transaction its four
bytes decode to, with the caller's part after it: the reply stored (assumption 15), then the next transaction or the end
of the dispatch (assumption 7). That one step runs a whole transaction is the model's choice (assumption 5). With
`phased` false a step that starts a dispatch also ends it, so only a state built to stand inside one
(`State.placeTransaction`, or `phased` cleared inside one) meets the hypotheses. -/
def Obligations.StepRunsTheDecodedTransaction : Prop :=
  ∀ (rest : List Byte) (i : Instr) (s : State),
    s.rst = false → s.busy = true → s.phased = false → s.atTransactionStart = true →
    decode s.params .serial s.transactionBytes = .ok (i, rest) →
    step s = andThen (exec i s) fun t => .next t.endTransaction

/-- R25, R51: outside reset and dispatch a step takes the oldest waiting host event, and that only: a command start, a
chunk (`takeData`, also one that completes no frame or is dropped) or a read (`takeRead`, also of another report id).
What the statements about these operations say, they say of a step. -/
def Obligations.StepTakesTheOldestEvent : Prop :=
  ∀ (e : HostEvent) (es : List HostEvent) (s : State), s.rst = false → s.busy = false → s.hostQueue = e :: es →
    step s = match e with
      | .startWrite id => .next (({ s with hostQueue := es } : State).startWrite id)
      | .data bs => takeData bs { s with hostQueue := es }
      | .startRead id => takeRead id { s with hostQueue := es }

/-- R25, R51: stepping by whole dispatches, one step for each waiting event does what taking the events one after another
does (`takeEvents`), and leaves the later events waiting. -/
def Obligations.StepsTakeTheWaitingEvents : Prop :=
  ∀ (es later : List HostEvent) (s : State), s.Quiescent → s.rst = false → s.hostQueue = es ++ later →
    stepMany es.length s = andThen (takeEvents es s) fun t => .next { t with hostQueue := later }

/-- R13: with no host event waiting the block is idle. -/
def Obligations.IdleWithoutHostEvents : Prop :=
  ∀ s : State, s.rst = false → s.busy = false → s.hostQueue = [] → step s = .next s

/-- R64 (decision D18 for the events held): during a dispatch a step takes no host event, answers no read and stores
no received byte, and it always has a next state. -/
def Obligations.DeafDuringADispatch : Prop :=
  ∀ s : State, s.rst = false → s.busy = true → ∃ t, step s = .next t
    ∧ t.hostQueue = s.hostQueue ∧ t.answers = s.answers ∧ t.rxbuf = s.rxbuf
    ∧ t.receiveOffset = s.receiveOffset ∧ t.receiveSize = s.receiveSize ∧ t.lineReset = s.lineReset

/-- R72: the block raises no exception: from every legal state a step has a next state. -/
def Obligations.NoStepStops : Prop :=
  ∀ s : State, s.Inv → ∃ t, step s = .next t

/-- R14 (the spec's derived invariants) and the model's own of the sequencing state (assumption 7): every step from a
legal state ends in a legal state. -/
def Obligations.EveryStepKeepsTheInvariant : Prop :=
  ∀ s t : State, s.Inv → step s = .next t → t.Inv

/-- R14, R17 (decision D15): the state after reset is legal. -/
def Obligations.ResetMeetsTheInvariant : Prop :=
  State.reset.Inv

/-- R12, R48: only the hardware reset (R81) and the completion of a RESET_DEVICE frame (R60) change the reset line; the
frame sets it low exactly when its flag, payload byte 0, is not 0x00 (R34; decision D6, and D19 in a batch frame). -/
def Obligations.OnlyResetDeviceMovesTheResetLine : Prop :=
  ∀ s t : State, step s = .next t → t.lineReset ≠ s.lineReset →
    s.rst = true ∨ (s.busy = false ∧ ∃ (bs : List Byte) (es : List HostEvent), s.hostQueue = .data bs :: es
      ∧ 0 < s.acceptCount bs ∧ t.receiveOffset = t.receiveSize
      ∧ t.rxbuf.load 2 = t.params.opcResetDevice ∧ t.lineReset = decide (t.rxbuf.load 3 = 0x00))

/-- R66 (the spec's derived rule), R8, R81: a step that changes `reply` is the hardware reset, or the end of a transaction
of a dispatch in progress, which in a legal state is that of an ISP_COMMAND frame (how such a dispatch is cut into steps:
assumptions 5 and 7), or it takes the chunk that completes an ISP_COMMAND single frame, or batch frame whose count is not
0. Outside the reset `reply` then holds the response of the last transaction (`resp`, assumption 6). Partial frames,
dropped data, command starts and reads leave it. -/
def Obligations.OnlyCompletedIspFramesChangeTheReply : Prop :=
  ∀ s t : State, step s = .next t → t.reply ≠ s.reply →
    s.rst = true
    ∨ (s.busy = true ∧ t.reply = t.resp
      ∧ (s.Inv → s.receiveOffset = s.receiveSize ∧ s.rxbuf.load 2 = s.params.opcIspCommand)
      ∧ ((s.phased = false ∧ s.atTransactionStart = true)
        ∨ (s.phase = .lowerClock ∧ s.bitIdx.val = 0 ∧ s.byteIdx.val = 3)))
    ∨ (s.busy = false ∧ t.reply = t.resp ∧ ∃ (bs : List Byte) (es : List HostEvent), s.hostQueue = .data bs :: es
      ∧ 0 < s.acceptCount bs ∧ t.receiveOffset = t.receiveSize ∧ t.rxbuf.load 2 = t.params.opcIspCommand
      ∧ (t.receiveSize = 7 ∨ (t.receiveSize = 133 ∧ (t.rxbuf.load 3).toNat % 32 ≠ 0)))

/-- R49: outside a hardware reset nothing is removed from the line-event trace. That a hardware reset empties it is the
model's choice (assumption 8), which the hypothesis leaves out. -/
def Obligations.TraceOnlyGrows : Prop :=
  ∀ s t : State, s.rst = false → step s = .next t → ∃ es, t.lineEvents = s.lineEvents ++ es

/-- R83: the parameters are fixed when the block is built: no step writes them. -/
def Obligations.ParametersNeverChange : Prop :=
  ∀ s t : State, step s = .next t → t.params = s.params

/-! ## The sequencing state -/

/-- R42, R13, R49 (how the counters advance is R13's; assumptions 5, 7, and 16 on the holds): stepping phase by phase through one transaction,
32 bits of four single phases and two holds of `SETTLE_CYCLES` each, gives the state of the transaction in one step. -/
def Obligations.PhasesRefineATransaction : Prop :=
  ∀ s : State, s.Inv → s.busy = true → s.atTransactionStart = true →
    runTransaction s = .next (State.phaseSteps (32 * (4 + 2 * s.params.settleCycles)) s)

/-- R13, R49, R59 (assumptions 5, 7 and 16): stepping phase by phase through a whole dispatch gives the state of the
dispatch in one step, for every complete frame that has a transaction. -/
def Obligations.PhasesRefineADispatch : Prop :=
  ∀ (s : State) (f : Format) (i : Instr) (rest : List Byte), s.Inv → s.busy = false →
    s.receiveOffset = s.receiveSize → s.frameFormat = some f →
    decode s.params f s.frameBytes = .ok (i, rest) → 0 < transactionCount i →
    dispatchWhole i s
      = .next (State.phaseSteps (transactionCount i * (32 * (4 + 2 * s.params.settleCycles))) s.beginDispatch)

/-- From every point of a dispatch, phase steps for 31 transactions are enough to end it. R13's derived bound counts each
hold as one phase, 31 × 4 × 8 × 6 = 5952; the bound here is the model's: one phase is one step and a hold is
`SETTLE_CYCLES` steps, one count a step (assumptions 5 and 16). With `SETTLE_CYCLES` = 1 the two agree. -/
def Obligations.EveryDispatchEnds : Prop :=
  ∀ s : State, s.Inv → (State.phaseSteps (31 * (32 * (4 + 2 * s.params.settleCycles))) s).busy = false

/-- R33, R42: phase by phase, `DATA_OUT` changes only while `CLOCK` is low and `DATA_IN` is sampled only while `CLOCK`
is high. -/
def Obligations.DataChangesLowAndSamplesHigh : Prop :=
  ∀ s t : State, s.Inv → s.rst = false → s.busy = true → s.phased = true → step s = .next t →
    (t.lineDataOut ≠ s.lineDataOut → s.lineClock = false ∧ t.lineClock = false)
    ∧ (t.draws ≠ s.draws → s.lineClock = true ∧ t.lineClock = true)

/-! ## What the host relies on -/

/-- R71 (the spec's derived rule): a host that writes an ISP_COMMAND frame in any chunks and then reads report 1 gets
the status, the sequence byte it sent, and the response of the one transaction performed in between. -/
def Obligations.HostRoundTrip : Prop :=
  ∀ (q : Byte) (c : Quad) (chunks : List (List Byte)) (s : State), s.Quiescent →
    chunks.flatten = [0x02, q, s.params.opcIspCommand, c.b0, c.b1, c.b2, c.b3] →
    ∃ (ss : List Level) (t : State) (a : List Byte),
      takeEvents (writeReport 0x02 chunks ++ hostStatus) s = .next t
      ∧ s.Presents 32 ss ∧ t.lineEvents = s.lineEvents ++ traceOf c ss ∧ t.answers = a :: s.answers
      ∧ IsReport s.params (statusOfLine s.params s.lineReset) q (responseOf ss) a

/-- R63, R66 (decision D11): after a frame of either size with an unknown opcode, written in any chunks, the status report
shows its sequence byte beside the old reply, and nothing was sent to the target. (`hostSendCommand` is such a write of a
single frame, in one chunk.) -/
def Obligations.UnknownFrameIsEchoed : Prop :=
  ∀ (id q o : Byte) (bs : List Byte) (chunks : List (List Byte)) (s : State), s.Quiescent →
    ((id = 0x02 ∧ bs.length = 7) ∨ (id = 0x03 ∧ bs.length = 133)) → chunks.flatten = bs →
    bs[1]? = some q → bs[2]? = some o → o ≠ s.params.opcResetDevice → o ≠ s.params.opcIspCommand →
    ∃ (t : State) (a : List Byte),
      takeEvents (writeReport id chunks ++ hostStatus) s = .next t
      ∧ t.lineEvents = s.lineEvents ∧ t.reply = s.reply ∧ t.lineReset = s.lineReset ∧ t.answers = a :: s.answers
      ∧ IsReport s.params (statusOfLine s.params s.lineReset) q s.reply a

/-- R87, R14 (decisions D13 and D20): a status read between the chunks of a frame shows the new frame's sequence byte
beside the old reply. -/
def Obligations.ReadBetweenChunksMixesFrames : Prop :=
  ∀ (r q : Byte) (s : State), s.Quiescent →
    ∃ (t : State) (a : List Byte),
      takeEvents [.startWrite 0x02, .data [r, q], .startRead 0x01] s = .next t
      ∧ t.receiveOffset = 2 ∧ t.receiveSize = 7 ∧ t.answers = a :: s.answers
      ∧ IsReport s.params (statusOfLine s.params s.lineReset) q s.reply a

/-! ## Reset and ports -/

/-- R17 (decision D15 chooses the values; `params`, `resp` and the input fields are the model's, assumptions 1 to 9, and
stand in no clause): what reset leaves. -/
def Obligations.ResetLeavesTheTableOfValues : Prop :=
  State.reset.lineDataOut = false ∧ State.reset.lineClock = false ∧ State.reset.lineReset = true
  ∧ State.reset.rsr = 0x00 ∧ State.reset.reply = ⟨0x00, 0x00, 0x00, 0x00⟩
  ∧ (∀ k, State.reset.rxbuf.load k = 0x00) ∧ State.reset.rxbuf.wf = true
  ∧ State.reset.receiveOffset = 0 ∧ State.reset.receiveSize = 0 ∧ State.reset.busy = false
  ∧ State.reset.txnIdx.val = 0 ∧ State.reset.byteIdx.val = 0 ∧ State.reset.bitIdx.val = 7
  ∧ State.reset.phase.number = 0 ∧ State.reset.waitCnt = 0 ∧ State.reset.lineEvents = []

/-- R81, R17 (decisions D1, D15, D27; that waiting host events stay is the model's choice, assumption 22, and stands in
no clause): while `rst` is 1 a step gives every piece of the block's state its reset value, from every state, a dispatch
in progress abandoned and nothing of it stored in `reply`. The clause on `lineEvents` is the model's choice (assumption
8): R17 lists the trace as empty after reset, R49 says that nothing removes from it and that it is no hardware state. -/
def Obligations.HardwareResetFromEveryState : Prop :=
  ∀ s : State, s.rst = true → ∃ t, step s = .next t
    ∧ t.lineDataOut = false ∧ t.lineClock = false ∧ t.lineReset = true ∧ t.rsr = 0x00
    ∧ t.reply = ⟨0x00, 0x00, 0x00, 0x00⟩ ∧ (∀ k, t.rxbuf.load k = 0x00)
    ∧ t.receiveOffset = 0 ∧ t.receiveSize = 0 ∧ t.busy = false
    ∧ t.txnIdx.val = 0 ∧ t.byteIdx.val = 0 ∧ t.bitIdx.val = 7 ∧ t.phase.number = 0 ∧ t.waitCnt = 0
    ∧ t.lineEvents = []

/-- R82 (the spec's derived rule; values of decisions D4, D5, D15): right after reset a status read answers
01 00 00 00 00 00 00, and data without a command start is dropped. -/
def Obligations.FirstBehaviourAfterReset : Prop :=
  takeRead 0x01 State.reset
      = .next { State.reset with answers := [[0x01, 0x00, 0x00, 0x00, 0x00, 0x00, 0x00]] }
  ∧ ∀ bs, takeData bs State.reset = .next State.reset

/-- R75, R16 (decision D1): a command start and a data byte offered in one cycle are taken in that order. That the inputs
of a cycle join the end of the waiting events, busy or not, is the model's choice (assumption 17; the queue itself is
assumption 4); with none waiting and the block ready, the first step takes the command start, a write's or a read's, and
the second the byte. -/
def Obligations.CommandStartIsTakenFirst : Prop :=
  ∀ (p : PortIn) (s : State), p.hCmdValid = true → p.hWrValid = true →
    (s.offer p).hostQueue = s.hostQueue
      ++ [if p.hCmdRead then .startRead p.hCmdId else .startWrite p.hCmdId, .data [p.hWrData]]
    ∧ (p.rst = false → s.busy = false → s.hostQueue = [] → ∃ t, step (s.offer p) = .next t
      ∧ takeEvent (if p.hCmdRead then .startRead p.hCmdId else .startWrite p.hCmdId)
          { s.offer p with hostQueue := [.data [p.hWrData]] } = .next t
      ∧ step t = takeData [p.hWrData] { t with hostQueue := [] })

/-- R16 (decision D1; that the ports are functions of the state is assumption 17): the output ports show the lines and
the handshake. After a seven-byte answer `h_rd_len` is 7 and byte `k` of it stands in bits `8k+7` to `8k` of `h_rd_data`;
after the empty answer `h_rd_len` is 0. That the read port shows the newest answer in every later state, and length 0
before the first, is the model's choice (assumption 9); of `h_rd_data` while the length is 0 nothing is said
(assumption 24). -/
def Obligations.PortsShowTheState : Prop :=
  (∀ s : State, s.ports.ispDataOut = s.lineDataOut ∧ s.ports.ispClock = s.lineClock
    ∧ s.ports.ispResetN = s.lineReset ∧ s.ports.hReady = !s.busy
    ∧ (s.ports.hWrDone = true ↔ s.receiveOffset = s.receiveSize ∧ s.busy = false))
  ∧ (∀ (s : State) (a : List Byte) (as : List (List Byte)), s.answers = a :: as → a.length = 7 →
    s.ports.hRdLen.toNat = 7 ∧ ∀ k, k < 7 → some (s.ports.hRdData.extractLsb' (8 * k) 8) = a[k]?)
  ∧ (∀ (s : State) (as : List (List Byte)), s.answers = [] :: as ∨ s.answers = [] → s.ports.hRdLen.toNat = 0)
end

