-- ==== Sys2Proof/Laws/State.lean ====
section
/-! SUPPORT. One lemma per field per update of State, each true by unfolding, so that no later proof unfolds a record
update; and the level a sample reads. -/

namespace Sys2Proof.Machine

/-! ### `setLine`: only the line named and the trace (R41) -/

@[simp] theorem State.setLine_params (l : OutLine) (v : Level) (s : State) : (s.setLine l v).params = s.params := by cases l <;> rfl
@[simp] theorem State.setLine_rsr (l : OutLine) (v : Level) (s : State) : (s.setLine l v).rsr = s.rsr := by cases l <;> rfl
@[simp] theorem State.setLine_resp (l : OutLine) (v : Level) (s : State) : (s.setLine l v).resp = s.resp := by cases l <;> rfl
@[simp] theorem State.setLine_reply (l : OutLine) (v : Level) (s : State) : (s.setLine l v).reply = s.reply := by cases l <;> rfl
@[simp] theorem State.setLine_rxbuf (l : OutLine) (v : Level) (s : State) : (s.setLine l v).rxbuf = s.rxbuf := by cases l <;> rfl
@[simp] theorem State.setLine_receiveOffset (l : OutLine) (v : Level) (s : State) : (s.setLine l v).receiveOffset = s.receiveOffset := by cases l <;> rfl
@[simp] theorem State.setLine_receiveSize (l : OutLine) (v : Level) (s : State) : (s.setLine l v).receiveSize = s.receiveSize := by cases l <;> rfl
@[simp] theorem State.setLine_busy (l : OutLine) (v : Level) (s : State) : (s.setLine l v).busy = s.busy := by cases l <;> rfl
@[simp] theorem State.setLine_txnIdx (l : OutLine) (v : Level) (s : State) : (s.setLine l v).txnIdx = s.txnIdx := by cases l <;> rfl
@[simp] theorem State.setLine_byteIdx (l : OutLine) (v : Level) (s : State) : (s.setLine l v).byteIdx = s.byteIdx := by cases l <;> rfl
@[simp] theorem State.setLine_bitIdx (l : OutLine) (v : Level) (s : State) : (s.setLine l v).bitIdx = s.bitIdx := by cases l <;> rfl
@[simp] theorem State.setLine_phase (l : OutLine) (v : Level) (s : State) : (s.setLine l v).phase = s.phase := by cases l <;> rfl
@[simp] theorem State.setLine_waitCnt (l : OutLine) (v : Level) (s : State) : (s.setLine l v).waitCnt = s.waitCnt := by cases l <;> rfl
@[simp] theorem State.setLine_answers (l : OutLine) (v : Level) (s : State) : (s.setLine l v).answers = s.answers := by cases l <;> rfl
@[simp] theorem State.setLine_rst (l : OutLine) (v : Level) (s : State) : (s.setLine l v).rst = s.rst := by cases l <;> rfl
@[simp] theorem State.setLine_hostQueue (l : OutLine) (v : Level) (s : State) : (s.setLine l v).hostQueue = s.hostQueue := by cases l <;> rfl
@[simp] theorem State.setLine_targetIn (l : OutLine) (v : Level) (s : State) : (s.setLine l v).targetIn = s.targetIn := by cases l <;> rfl
@[simp] theorem State.setLine_draws (l : OutLine) (v : Level) (s : State) : (s.setLine l v).draws = s.draws := by cases l <;> rfl
@[simp] theorem State.setLine_phased (l : OutLine) (v : Level) (s : State) : (s.setLine l v).phased = s.phased := by cases l <;> rfl
@[simp] theorem State.setLine_dataOut_lineDataOut (v : Level) (s : State) : (s.setLine .dataOut v).lineDataOut = v := rfl
@[simp] theorem State.setLine_dataOut_lineClock (v : Level) (s : State) : (s.setLine .dataOut v).lineClock = s.lineClock := rfl
@[simp] theorem State.setLine_dataOut_lineReset (v : Level) (s : State) : (s.setLine .dataOut v).lineReset = s.lineReset := rfl
@[simp] theorem State.setLine_dataOut_trace (v : Level) (s : State) : (s.setLine .dataOut v).trace = .dataOut v :: s.trace := rfl
@[simp] theorem State.setLine_clock_lineDataOut (v : Level) (s : State) : (s.setLine .clock v).lineDataOut = s.lineDataOut := rfl
@[simp] theorem State.setLine_clock_lineClock (v : Level) (s : State) : (s.setLine .clock v).lineClock = v := rfl
@[simp] theorem State.setLine_clock_lineReset (v : Level) (s : State) : (s.setLine .clock v).lineReset = s.lineReset := rfl
@[simp] theorem State.setLine_clock_trace (v : Level) (s : State) : (s.setLine .clock v).trace = .clock v :: s.trace := rfl
@[simp] theorem State.setLine_reset_lineDataOut (v : Level) (s : State) : (s.setLine .reset v).lineDataOut = s.lineDataOut := rfl
@[simp] theorem State.setLine_reset_lineClock (v : Level) (s : State) : (s.setLine .reset v).lineClock = s.lineClock := rfl
@[simp] theorem State.setLine_reset_lineReset (v : Level) (s : State) : (s.setLine .reset v).lineReset = v := rfl
@[simp] theorem State.setLine_reset_trace (v : Level) (s : State) : (s.setLine .reset v).trace = .reset v :: s.trace := rfl

/-! ### `setReset`: only the reset line and the trace (R45) -/

@[simp] theorem State.setReset_params (a : Bool) (s : State) : (s.setReset a).params = s.params := by cases a <;> rfl
@[simp] theorem State.setReset_lineDataOut (a : Bool) (s : State) : (s.setReset a).lineDataOut = s.lineDataOut := by cases a <;> rfl
@[simp] theorem State.setReset_lineClock (a : Bool) (s : State) : (s.setReset a).lineClock = s.lineClock := by cases a <;> rfl
@[simp] theorem State.setReset_rsr (a : Bool) (s : State) : (s.setReset a).rsr = s.rsr := by cases a <;> rfl
@[simp] theorem State.setReset_resp (a : Bool) (s : State) : (s.setReset a).resp = s.resp := by cases a <;> rfl
@[simp] theorem State.setReset_reply (a : Bool) (s : State) : (s.setReset a).reply = s.reply := by cases a <;> rfl
@[simp] theorem State.setReset_rxbuf (a : Bool) (s : State) : (s.setReset a).rxbuf = s.rxbuf := by cases a <;> rfl
@[simp] theorem State.setReset_receiveOffset (a : Bool) (s : State) : (s.setReset a).receiveOffset = s.receiveOffset := by cases a <;> rfl
@[simp] theorem State.setReset_receiveSize (a : Bool) (s : State) : (s.setReset a).receiveSize = s.receiveSize := by cases a <;> rfl
@[simp] theorem State.setReset_busy (a : Bool) (s : State) : (s.setReset a).busy = s.busy := by cases a <;> rfl
@[simp] theorem State.setReset_txnIdx (a : Bool) (s : State) : (s.setReset a).txnIdx = s.txnIdx := by cases a <;> rfl
@[simp] theorem State.setReset_byteIdx (a : Bool) (s : State) : (s.setReset a).byteIdx = s.byteIdx := by cases a <;> rfl
@[simp] theorem State.setReset_bitIdx (a : Bool) (s : State) : (s.setReset a).bitIdx = s.bitIdx := by cases a <;> rfl
@[simp] theorem State.setReset_phase (a : Bool) (s : State) : (s.setReset a).phase = s.phase := by cases a <;> rfl
@[simp] theorem State.setReset_waitCnt (a : Bool) (s : State) : (s.setReset a).waitCnt = s.waitCnt := by cases a <;> rfl
@[simp] theorem State.setReset_answers (a : Bool) (s : State) : (s.setReset a).answers = s.answers := by cases a <;> rfl
@[simp] theorem State.setReset_rst (a : Bool) (s : State) : (s.setReset a).rst = s.rst := by cases a <;> rfl
@[simp] theorem State.setReset_hostQueue (a : Bool) (s : State) : (s.setReset a).hostQueue = s.hostQueue := by cases a <;> rfl
@[simp] theorem State.setReset_targetIn (a : Bool) (s : State) : (s.setReset a).targetIn = s.targetIn := by cases a <;> rfl
@[simp] theorem State.setReset_draws (a : Bool) (s : State) : (s.setReset a).draws = s.draws := by cases a <;> rfl
@[simp] theorem State.setReset_phased (a : Bool) (s : State) : (s.setReset a).phased = s.phased := by cases a <;> rfl
@[simp] theorem State.setReset_lineReset (a : Bool) (s : State) : (s.setReset a).lineReset = !a := by cases a <;> rfl
@[simp] theorem State.setReset_trace (a : Bool) (s : State) : (s.setReset a).trace = .reset (!a) :: s.trace := by cases a <;> rfl

/-! ### `wait`: only the trace (R41) -/

@[simp] theorem State.wait_params (s : State) : (s.wait).params = s.params := rfl
@[simp] theorem State.wait_lineDataOut (s : State) : (s.wait).lineDataOut = s.lineDataOut := rfl
@[simp] theorem State.wait_lineClock (s : State) : (s.wait).lineClock = s.lineClock := rfl
@[simp] theorem State.wait_lineReset (s : State) : (s.wait).lineReset = s.lineReset := rfl
@[simp] theorem State.wait_rsr (s : State) : (s.wait).rsr = s.rsr := rfl
@[simp] theorem State.wait_resp (s : State) : (s.wait).resp = s.resp := rfl
@[simp] theorem State.wait_reply (s : State) : (s.wait).reply = s.reply := rfl
@[simp] theorem State.wait_rxbuf (s : State) : (s.wait).rxbuf = s.rxbuf := rfl
@[simp] theorem State.wait_receiveOffset (s : State) : (s.wait).receiveOffset = s.receiveOffset := rfl
@[simp] theorem State.wait_receiveSize (s : State) : (s.wait).receiveSize = s.receiveSize := rfl
@[simp] theorem State.wait_busy (s : State) : (s.wait).busy = s.busy := rfl
@[simp] theorem State.wait_txnIdx (s : State) : (s.wait).txnIdx = s.txnIdx := rfl
@[simp] theorem State.wait_byteIdx (s : State) : (s.wait).byteIdx = s.byteIdx := rfl
@[simp] theorem State.wait_bitIdx (s : State) : (s.wait).bitIdx = s.bitIdx := rfl
@[simp] theorem State.wait_phase (s : State) : (s.wait).phase = s.phase := rfl
@[simp] theorem State.wait_waitCnt (s : State) : (s.wait).waitCnt = s.waitCnt := rfl
@[simp] theorem State.wait_trace (s : State) : (s.wait).trace = .settle :: s.trace := rfl
@[simp] theorem State.wait_answers (s : State) : (s.wait).answers = s.answers := rfl
@[simp] theorem State.wait_rst (s : State) : (s.wait).rst = s.rst := rfl
@[simp] theorem State.wait_hostQueue (s : State) : (s.wait).hostQueue = s.hostQueue := rfl
@[simp] theorem State.wait_targetIn (s : State) : (s.wait).targetIn = s.targetIn := rfl
@[simp] theorem State.wait_draws (s : State) : (s.wait).draws = s.draws := rfl
@[simp] theorem State.wait_phased (s : State) : (s.wait).phased = s.phased := rfl

/-! ### `readLine`: the trace and one draw (R28, R41) -/

@[simp] theorem State.readLine_params (s : State) : (s.readLine).params = s.params := rfl
@[simp] theorem State.readLine_lineDataOut (s : State) : (s.readLine).lineDataOut = s.lineDataOut := rfl
@[simp] theorem State.readLine_lineClock (s : State) : (s.readLine).lineClock = s.lineClock := rfl
@[simp] theorem State.readLine_lineReset (s : State) : (s.readLine).lineReset = s.lineReset := rfl
@[simp] theorem State.readLine_rsr (s : State) : (s.readLine).rsr = s.rsr := rfl
@[simp] theorem State.readLine_resp (s : State) : (s.readLine).resp = s.resp := rfl
@[simp] theorem State.readLine_reply (s : State) : (s.readLine).reply = s.reply := rfl
@[simp] theorem State.readLine_rxbuf (s : State) : (s.readLine).rxbuf = s.rxbuf := rfl
@[simp] theorem State.readLine_receiveOffset (s : State) : (s.readLine).receiveOffset = s.receiveOffset := rfl
@[simp] theorem State.readLine_receiveSize (s : State) : (s.readLine).receiveSize = s.receiveSize := rfl
@[simp] theorem State.readLine_busy (s : State) : (s.readLine).busy = s.busy := rfl
@[simp] theorem State.readLine_txnIdx (s : State) : (s.readLine).txnIdx = s.txnIdx := rfl
@[simp] theorem State.readLine_byteIdx (s : State) : (s.readLine).byteIdx = s.byteIdx := rfl
@[simp] theorem State.readLine_bitIdx (s : State) : (s.readLine).bitIdx = s.bitIdx := rfl
@[simp] theorem State.readLine_phase (s : State) : (s.readLine).phase = s.phase := rfl
@[simp] theorem State.readLine_waitCnt (s : State) : (s.readLine).waitCnt = s.waitCnt := rfl
@[simp] theorem State.readLine_trace (s : State) : (s.readLine).trace = .sample s.dataIn :: s.trace := rfl
@[simp] theorem State.readLine_answers (s : State) : (s.readLine).answers = s.answers := rfl
@[simp] theorem State.readLine_rst (s : State) : (s.readLine).rst = s.rst := rfl
@[simp] theorem State.readLine_hostQueue (s : State) : (s.readLine).hostQueue = s.hostQueue := rfl
@[simp] theorem State.readLine_targetIn (s : State) : (s.readLine).targetIn = s.targetIn.tail := rfl
@[simp] theorem State.readLine_draws (s : State) : (s.readLine).draws = s.draws + 1 := rfl
@[simp] theorem State.readLine_phased (s : State) : (s.readLine).phased = s.phased := rfl

/-! ### `samplePhase`: the shift register, the trace and one draw (R42) -/

@[simp] theorem State.samplePhase_params (s : State) : (s.samplePhase).params = s.params := rfl
@[simp] theorem State.samplePhase_lineDataOut (s : State) : (s.samplePhase).lineDataOut = s.lineDataOut := rfl
@[simp] theorem State.samplePhase_lineClock (s : State) : (s.samplePhase).lineClock = s.lineClock := rfl
@[simp] theorem State.samplePhase_lineReset (s : State) : (s.samplePhase).lineReset = s.lineReset := rfl
@[simp] theorem State.samplePhase_rsr (s : State) : (s.samplePhase).rsr = shiftIn s.rsr s.dataIn := rfl
@[simp] theorem State.samplePhase_resp (s : State) : (s.samplePhase).resp = s.resp := rfl
@[simp] theorem State.samplePhase_reply (s : State) : (s.samplePhase).reply = s.reply := rfl
@[simp] theorem State.samplePhase_rxbuf (s : State) : (s.samplePhase).rxbuf = s.rxbuf := rfl
@[simp] theorem State.samplePhase_receiveOffset (s : State) : (s.samplePhase).receiveOffset = s.receiveOffset := rfl
@[simp] theorem State.samplePhase_receiveSize (s : State) : (s.samplePhase).receiveSize = s.receiveSize := rfl
@[simp] theorem State.samplePhase_busy (s : State) : (s.samplePhase).busy = s.busy := rfl
@[simp] theorem State.samplePhase_txnIdx (s : State) : (s.samplePhase).txnIdx = s.txnIdx := rfl
@[simp] theorem State.samplePhase_byteIdx (s : State) : (s.samplePhase).byteIdx = s.byteIdx := rfl
@[simp] theorem State.samplePhase_bitIdx (s : State) : (s.samplePhase).bitIdx = s.bitIdx := rfl
@[simp] theorem State.samplePhase_phase (s : State) : (s.samplePhase).phase = s.phase := rfl
@[simp] theorem State.samplePhase_waitCnt (s : State) : (s.samplePhase).waitCnt = s.waitCnt := rfl
@[simp] theorem State.samplePhase_trace (s : State) : (s.samplePhase).trace = .sample s.dataIn :: s.trace := rfl
@[simp] theorem State.samplePhase_answers (s : State) : (s.samplePhase).answers = s.answers := rfl
@[simp] theorem State.samplePhase_rst (s : State) : (s.samplePhase).rst = s.rst := rfl
@[simp] theorem State.samplePhase_hostQueue (s : State) : (s.samplePhase).hostQueue = s.hostQueue := rfl
@[simp] theorem State.samplePhase_targetIn (s : State) : (s.samplePhase).targetIn = s.targetIn.tail := rfl
@[simp] theorem State.samplePhase_draws (s : State) : (s.samplePhase).draws = s.draws + 1 := rfl
@[simp] theorem State.samplePhase_phased (s : State) : (s.samplePhase).phased = s.phased := rfl

/-! ### `putResp`: only `resp` (R44) -/

@[simp] theorem State.putResp_params (j : Fin 4) (v : Byte) (s : State) : (s.putResp j v).params = s.params := rfl
@[simp] theorem State.putResp_lineDataOut (j : Fin 4) (v : Byte) (s : State) : (s.putResp j v).lineDataOut = s.lineDataOut := rfl
@[simp] theorem State.putResp_lineClock (j : Fin 4) (v : Byte) (s : State) : (s.putResp j v).lineClock = s.lineClock := rfl
@[simp] theorem State.putResp_lineReset (j : Fin 4) (v : Byte) (s : State) : (s.putResp j v).lineReset = s.lineReset := rfl
@[simp] theorem State.putResp_rsr (j : Fin 4) (v : Byte) (s : State) : (s.putResp j v).rsr = s.rsr := rfl
@[simp] theorem State.putResp_resp (j : Fin 4) (v : Byte) (s : State) : (s.putResp j v).resp = s.resp.put j v := rfl
@[simp] theorem State.putResp_reply (j : Fin 4) (v : Byte) (s : State) : (s.putResp j v).reply = s.reply := rfl
@[simp] theorem State.putResp_rxbuf (j : Fin 4) (v : Byte) (s : State) : (s.putResp j v).rxbuf = s.rxbuf := rfl
@[simp] theorem State.putResp_receiveOffset (j : Fin 4) (v : Byte) (s : State) : (s.putResp j v).receiveOffset = s.receiveOffset := rfl
@[simp] theorem State.putResp_receiveSize (j : Fin 4) (v : Byte) (s : State) : (s.putResp j v).receiveSize = s.receiveSize := rfl
@[simp] theorem State.putResp_busy (j : Fin 4) (v : Byte) (s : State) : (s.putResp j v).busy = s.busy := rfl
@[simp] theorem State.putResp_txnIdx (j : Fin 4) (v : Byte) (s : State) : (s.putResp j v).txnIdx = s.txnIdx := rfl
@[simp] theorem State.putResp_byteIdx (j : Fin 4) (v : Byte) (s : State) : (s.putResp j v).byteIdx = s.byteIdx := rfl
@[simp] theorem State.putResp_bitIdx (j : Fin 4) (v : Byte) (s : State) : (s.putResp j v).bitIdx = s.bitIdx := rfl
@[simp] theorem State.putResp_phase (j : Fin 4) (v : Byte) (s : State) : (s.putResp j v).phase = s.phase := rfl
@[simp] theorem State.putResp_waitCnt (j : Fin 4) (v : Byte) (s : State) : (s.putResp j v).waitCnt = s.waitCnt := rfl
@[simp] theorem State.putResp_trace (j : Fin 4) (v : Byte) (s : State) : (s.putResp j v).trace = s.trace := rfl
@[simp] theorem State.putResp_answers (j : Fin 4) (v : Byte) (s : State) : (s.putResp j v).answers = s.answers := rfl
@[simp] theorem State.putResp_rst (j : Fin 4) (v : Byte) (s : State) : (s.putResp j v).rst = s.rst := rfl
@[simp] theorem State.putResp_hostQueue (j : Fin 4) (v : Byte) (s : State) : (s.putResp j v).hostQueue = s.hostQueue := rfl
@[simp] theorem State.putResp_targetIn (j : Fin 4) (v : Byte) (s : State) : (s.putResp j v).targetIn = s.targetIn := rfl
@[simp] theorem State.putResp_draws (j : Fin 4) (v : Byte) (s : State) : (s.putResp j v).draws = s.draws := rfl
@[simp] theorem State.putResp_phased (j : Fin 4) (v : Byte) (s : State) : (s.putResp j v).phased = s.phased := rfl

/-! ### `storeReply`: only `reply` (R61) -/

@[simp] theorem State.storeReply_params (s : State) : (s.storeReply).params = s.params := rfl
@[simp] theorem State.storeReply_lineDataOut (s : State) : (s.storeReply).lineDataOut = s.lineDataOut := rfl
@[simp] theorem State.storeReply_lineClock (s : State) : (s.storeReply).lineClock = s.lineClock := rfl
@[simp] theorem State.storeReply_lineReset (s : State) : (s.storeReply).lineReset = s.lineReset := rfl
@[simp] theorem State.storeReply_rsr (s : State) : (s.storeReply).rsr = s.rsr := rfl
@[simp] theorem State.storeReply_resp (s : State) : (s.storeReply).resp = s.resp := rfl
@[simp] theorem State.storeReply_reply (s : State) : (s.storeReply).reply = s.resp := rfl
@[simp] theorem State.storeReply_rxbuf (s : State) : (s.storeReply).rxbuf = s.rxbuf := rfl
@[simp] theorem State.storeReply_receiveOffset (s : State) : (s.storeReply).receiveOffset = s.receiveOffset := rfl
@[simp] theorem State.storeReply_receiveSize (s : State) : (s.storeReply).receiveSize = s.receiveSize := rfl
@[simp] theorem State.storeReply_busy (s : State) : (s.storeReply).busy = s.busy := rfl
@[simp] theorem State.storeReply_txnIdx (s : State) : (s.storeReply).txnIdx = s.txnIdx := rfl
@[simp] theorem State.storeReply_byteIdx (s : State) : (s.storeReply).byteIdx = s.byteIdx := rfl
@[simp] theorem State.storeReply_bitIdx (s : State) : (s.storeReply).bitIdx = s.bitIdx := rfl
@[simp] theorem State.storeReply_phase (s : State) : (s.storeReply).phase = s.phase := rfl
@[simp] theorem State.storeReply_waitCnt (s : State) : (s.storeReply).waitCnt = s.waitCnt := rfl
@[simp] theorem State.storeReply_trace (s : State) : (s.storeReply).trace = s.trace := rfl
@[simp] theorem State.storeReply_answers (s : State) : (s.storeReply).answers = s.answers := rfl
@[simp] theorem State.storeReply_rst (s : State) : (s.storeReply).rst = s.rst := rfl
@[simp] theorem State.storeReply_hostQueue (s : State) : (s.storeReply).hostQueue = s.hostQueue := rfl
@[simp] theorem State.storeReply_targetIn (s : State) : (s.storeReply).targetIn = s.targetIn := rfl
@[simp] theorem State.storeReply_draws (s : State) : (s.storeReply).draws = s.draws := rfl
@[simp] theorem State.storeReply_phased (s : State) : (s.storeReply).phased = s.phased := rfl

/-! ### `setBusy`: only `busy` (R59) -/

@[simp] theorem State.setBusy_params (b : Bool) (s : State) : (s.setBusy b).params = s.params := rfl
@[simp] theorem State.setBusy_lineDataOut (b : Bool) (s : State) : (s.setBusy b).lineDataOut = s.lineDataOut := rfl
@[simp] theorem State.setBusy_lineClock (b : Bool) (s : State) : (s.setBusy b).lineClock = s.lineClock := rfl
@[simp] theorem State.setBusy_lineReset (b : Bool) (s : State) : (s.setBusy b).lineReset = s.lineReset := rfl
@[simp] theorem State.setBusy_rsr (b : Bool) (s : State) : (s.setBusy b).rsr = s.rsr := rfl
@[simp] theorem State.setBusy_resp (b : Bool) (s : State) : (s.setBusy b).resp = s.resp := rfl
@[simp] theorem State.setBusy_reply (b : Bool) (s : State) : (s.setBusy b).reply = s.reply := rfl
@[simp] theorem State.setBusy_rxbuf (b : Bool) (s : State) : (s.setBusy b).rxbuf = s.rxbuf := rfl
@[simp] theorem State.setBusy_receiveOffset (b : Bool) (s : State) : (s.setBusy b).receiveOffset = s.receiveOffset := rfl
@[simp] theorem State.setBusy_receiveSize (b : Bool) (s : State) : (s.setBusy b).receiveSize = s.receiveSize := rfl
@[simp] theorem State.setBusy_busy (b : Bool) (s : State) : (s.setBusy b).busy = b := rfl
@[simp] theorem State.setBusy_txnIdx (b : Bool) (s : State) : (s.setBusy b).txnIdx = s.txnIdx := rfl
@[simp] theorem State.setBusy_byteIdx (b : Bool) (s : State) : (s.setBusy b).byteIdx = s.byteIdx := rfl
@[simp] theorem State.setBusy_bitIdx (b : Bool) (s : State) : (s.setBusy b).bitIdx = s.bitIdx := rfl
@[simp] theorem State.setBusy_phase (b : Bool) (s : State) : (s.setBusy b).phase = s.phase := rfl
@[simp] theorem State.setBusy_waitCnt (b : Bool) (s : State) : (s.setBusy b).waitCnt = s.waitCnt := rfl
@[simp] theorem State.setBusy_trace (b : Bool) (s : State) : (s.setBusy b).trace = s.trace := rfl
@[simp] theorem State.setBusy_answers (b : Bool) (s : State) : (s.setBusy b).answers = s.answers := rfl
@[simp] theorem State.setBusy_rst (b : Bool) (s : State) : (s.setBusy b).rst = s.rst := rfl
@[simp] theorem State.setBusy_hostQueue (b : Bool) (s : State) : (s.setBusy b).hostQueue = s.hostQueue := rfl
@[simp] theorem State.setBusy_targetIn (b : Bool) (s : State) : (s.setBusy b).targetIn = s.targetIn := rfl
@[simp] theorem State.setBusy_draws (b : Bool) (s : State) : (s.setBusy b).draws = s.draws := rfl
@[simp] theorem State.setBusy_phased (b : Bool) (s : State) : (s.setBusy b).phased = s.phased := rfl

/-! ### `answer`: only the answers given (R67) -/

@[simp] theorem State.answer_params (a : List Byte) (s : State) : (s.answer a).params = s.params := rfl
@[simp] theorem State.answer_lineDataOut (a : List Byte) (s : State) : (s.answer a).lineDataOut = s.lineDataOut := rfl
@[simp] theorem State.answer_lineClock (a : List Byte) (s : State) : (s.answer a).lineClock = s.lineClock := rfl
@[simp] theorem State.answer_lineReset (a : List Byte) (s : State) : (s.answer a).lineReset = s.lineReset := rfl
@[simp] theorem State.answer_rsr (a : List Byte) (s : State) : (s.answer a).rsr = s.rsr := rfl
@[simp] theorem State.answer_resp (a : List Byte) (s : State) : (s.answer a).resp = s.resp := rfl
@[simp] theorem State.answer_reply (a : List Byte) (s : State) : (s.answer a).reply = s.reply := rfl
@[simp] theorem State.answer_rxbuf (a : List Byte) (s : State) : (s.answer a).rxbuf = s.rxbuf := rfl
@[simp] theorem State.answer_receiveOffset (a : List Byte) (s : State) : (s.answer a).receiveOffset = s.receiveOffset := rfl
@[simp] theorem State.answer_receiveSize (a : List Byte) (s : State) : (s.answer a).receiveSize = s.receiveSize := rfl
@[simp] theorem State.answer_busy (a : List Byte) (s : State) : (s.answer a).busy = s.busy := rfl
@[simp] theorem State.answer_txnIdx (a : List Byte) (s : State) : (s.answer a).txnIdx = s.txnIdx := rfl
@[simp] theorem State.answer_byteIdx (a : List Byte) (s : State) : (s.answer a).byteIdx = s.byteIdx := rfl
@[simp] theorem State.answer_bitIdx (a : List Byte) (s : State) : (s.answer a).bitIdx = s.bitIdx := rfl
@[simp] theorem State.answer_phase (a : List Byte) (s : State) : (s.answer a).phase = s.phase := rfl
@[simp] theorem State.answer_waitCnt (a : List Byte) (s : State) : (s.answer a).waitCnt = s.waitCnt := rfl
@[simp] theorem State.answer_trace (a : List Byte) (s : State) : (s.answer a).trace = s.trace := rfl
@[simp] theorem State.answer_answers (a : List Byte) (s : State) : (s.answer a).answers = a :: s.answers := rfl
@[simp] theorem State.answer_rst (a : List Byte) (s : State) : (s.answer a).rst = s.rst := rfl
@[simp] theorem State.answer_hostQueue (a : List Byte) (s : State) : (s.answer a).hostQueue = s.hostQueue := rfl
@[simp] theorem State.answer_targetIn (a : List Byte) (s : State) : (s.answer a).targetIn = s.targetIn := rfl
@[simp] theorem State.answer_draws (a : List Byte) (s : State) : (s.answer a).draws = s.draws := rfl
@[simp] theorem State.answer_phased (a : List Byte) (s : State) : (s.answer a).phased = s.phased := rfl

/-! ### `startWrite`: only `receiveSize` and `receiveOffset` (R52) -/

@[simp] theorem State.startWrite_params (id : Byte) (s : State) : (s.startWrite id).params = s.params := rfl
@[simp] theorem State.startWrite_lineDataOut (id : Byte) (s : State) : (s.startWrite id).lineDataOut = s.lineDataOut := rfl
@[simp] theorem State.startWrite_lineClock (id : Byte) (s : State) : (s.startWrite id).lineClock = s.lineClock := rfl
@[simp] theorem State.startWrite_lineReset (id : Byte) (s : State) : (s.startWrite id).lineReset = s.lineReset := rfl
@[simp] theorem State.startWrite_rsr (id : Byte) (s : State) : (s.startWrite id).rsr = s.rsr := rfl
@[simp] theorem State.startWrite_resp (id : Byte) (s : State) : (s.startWrite id).resp = s.resp := rfl
@[simp] theorem State.startWrite_reply (id : Byte) (s : State) : (s.startWrite id).reply = s.reply := rfl
@[simp] theorem State.startWrite_rxbuf (id : Byte) (s : State) : (s.startWrite id).rxbuf = s.rxbuf := rfl
@[simp] theorem State.startWrite_receiveOffset (id : Byte) (s : State) : (s.startWrite id).receiveOffset = 0 := rfl
@[simp] theorem State.startWrite_receiveSize (id : Byte) (s : State) : (s.startWrite id).receiveSize = if id = reportSingleId then rxSizeSingle else if id = reportBatchId then rxSizeBatch else 0 := rfl
@[simp] theorem State.startWrite_busy (id : Byte) (s : State) : (s.startWrite id).busy = s.busy := rfl
@[simp] theorem State.startWrite_txnIdx (id : Byte) (s : State) : (s.startWrite id).txnIdx = s.txnIdx := rfl
@[simp] theorem State.startWrite_byteIdx (id : Byte) (s : State) : (s.startWrite id).byteIdx = s.byteIdx := rfl
@[simp] theorem State.startWrite_bitIdx (id : Byte) (s : State) : (s.startWrite id).bitIdx = s.bitIdx := rfl
@[simp] theorem State.startWrite_phase (id : Byte) (s : State) : (s.startWrite id).phase = s.phase := rfl
@[simp] theorem State.startWrite_waitCnt (id : Byte) (s : State) : (s.startWrite id).waitCnt = s.waitCnt := rfl
@[simp] theorem State.startWrite_trace (id : Byte) (s : State) : (s.startWrite id).trace = s.trace := rfl
@[simp] theorem State.startWrite_answers (id : Byte) (s : State) : (s.startWrite id).answers = s.answers := rfl
@[simp] theorem State.startWrite_rst (id : Byte) (s : State) : (s.startWrite id).rst = s.rst := rfl
@[simp] theorem State.startWrite_hostQueue (id : Byte) (s : State) : (s.startWrite id).hostQueue = s.hostQueue := rfl
@[simp] theorem State.startWrite_targetIn (id : Byte) (s : State) : (s.startWrite id).targetIn = s.targetIn := rfl
@[simp] theorem State.startWrite_draws (id : Byte) (s : State) : (s.startWrite id).draws = s.draws := rfl
@[simp] theorem State.startWrite_phased (id : Byte) (s : State) : (s.startWrite id).phased = s.phased := rfl

/-! ### `append`: only `rxbuf` and `receiveOffset` (R53) -/

@[simp] theorem State.append_params (bs : List Byte) (s : State) : (s.append bs).params = s.params := rfl
@[simp] theorem State.append_lineDataOut (bs : List Byte) (s : State) : (s.append bs).lineDataOut = s.lineDataOut := rfl
@[simp] theorem State.append_lineClock (bs : List Byte) (s : State) : (s.append bs).lineClock = s.lineClock := rfl
@[simp] theorem State.append_lineReset (bs : List Byte) (s : State) : (s.append bs).lineReset = s.lineReset := rfl
@[simp] theorem State.append_rsr (bs : List Byte) (s : State) : (s.append bs).rsr = s.rsr := rfl
@[simp] theorem State.append_resp (bs : List Byte) (s : State) : (s.append bs).resp = s.resp := rfl
@[simp] theorem State.append_reply (bs : List Byte) (s : State) : (s.append bs).reply = s.reply := rfl
@[simp] theorem State.append_rxbuf (bs : List Byte) (s : State) : (s.append bs).rxbuf = s.rxbuf.storeAll s.receiveOffset bs := rfl
@[simp] theorem State.append_receiveOffset (bs : List Byte) (s : State) : (s.append bs).receiveOffset = s.receiveOffset + bs.length := rfl
@[simp] theorem State.append_receiveSize (bs : List Byte) (s : State) : (s.append bs).receiveSize = s.receiveSize := rfl
@[simp] theorem State.append_busy (bs : List Byte) (s : State) : (s.append bs).busy = s.busy := rfl
@[simp] theorem State.append_txnIdx (bs : List Byte) (s : State) : (s.append bs).txnIdx = s.txnIdx := rfl
@[simp] theorem State.append_byteIdx (bs : List Byte) (s : State) : (s.append bs).byteIdx = s.byteIdx := rfl
@[simp] theorem State.append_bitIdx (bs : List Byte) (s : State) : (s.append bs).bitIdx = s.bitIdx := rfl
@[simp] theorem State.append_phase (bs : List Byte) (s : State) : (s.append bs).phase = s.phase := rfl
@[simp] theorem State.append_waitCnt (bs : List Byte) (s : State) : (s.append bs).waitCnt = s.waitCnt := rfl
@[simp] theorem State.append_trace (bs : List Byte) (s : State) : (s.append bs).trace = s.trace := rfl
@[simp] theorem State.append_answers (bs : List Byte) (s : State) : (s.append bs).answers = s.answers := rfl
@[simp] theorem State.append_rst (bs : List Byte) (s : State) : (s.append bs).rst = s.rst := rfl
@[simp] theorem State.append_hostQueue (bs : List Byte) (s : State) : (s.append bs).hostQueue = s.hostQueue := rfl
@[simp] theorem State.append_targetIn (bs : List Byte) (s : State) : (s.append bs).targetIn = s.targetIn := rfl
@[simp] theorem State.append_draws (bs : List Byte) (s : State) : (s.append bs).draws = s.draws := rfl
@[simp] theorem State.append_phased (bs : List Byte) (s : State) : (s.append bs).phased = s.phased := rfl

/-! ### `beginDispatch`: only the sequencing state (R13) -/

@[simp] theorem State.beginDispatch_params (s : State) : (s.beginDispatch).params = s.params := rfl
@[simp] theorem State.beginDispatch_lineDataOut (s : State) : (s.beginDispatch).lineDataOut = s.lineDataOut := rfl
@[simp] theorem State.beginDispatch_lineClock (s : State) : (s.beginDispatch).lineClock = s.lineClock := rfl
@[simp] theorem State.beginDispatch_lineReset (s : State) : (s.beginDispatch).lineReset = s.lineReset := rfl
@[simp] theorem State.beginDispatch_rsr (s : State) : (s.beginDispatch).rsr = s.rsr := rfl
@[simp] theorem State.beginDispatch_resp (s : State) : (s.beginDispatch).resp = s.resp := rfl
@[simp] theorem State.beginDispatch_reply (s : State) : (s.beginDispatch).reply = s.reply := rfl
@[simp] theorem State.beginDispatch_rxbuf (s : State) : (s.beginDispatch).rxbuf = s.rxbuf := rfl
@[simp] theorem State.beginDispatch_receiveOffset (s : State) : (s.beginDispatch).receiveOffset = s.receiveOffset := rfl
@[simp] theorem State.beginDispatch_receiveSize (s : State) : (s.beginDispatch).receiveSize = s.receiveSize := rfl
@[simp] theorem State.beginDispatch_busy (s : State) : (s.beginDispatch).busy = true := rfl
@[simp] theorem State.beginDispatch_txnIdx (s : State) : (s.beginDispatch).txnIdx = 0 := rfl
@[simp] theorem State.beginDispatch_byteIdx (s : State) : (s.beginDispatch).byteIdx = 0 := rfl
@[simp] theorem State.beginDispatch_bitIdx (s : State) : (s.beginDispatch).bitIdx = 7 := rfl
@[simp] theorem State.beginDispatch_phase (s : State) : (s.beginDispatch).phase = .driveData := rfl
@[simp] theorem State.beginDispatch_waitCnt (s : State) : (s.beginDispatch).waitCnt = 0 := rfl
@[simp] theorem State.beginDispatch_trace (s : State) : (s.beginDispatch).trace = s.trace := rfl
@[simp] theorem State.beginDispatch_answers (s : State) : (s.beginDispatch).answers = s.answers := rfl
@[simp] theorem State.beginDispatch_rst (s : State) : (s.beginDispatch).rst = s.rst := rfl
@[simp] theorem State.beginDispatch_hostQueue (s : State) : (s.beginDispatch).hostQueue = s.hostQueue := rfl
@[simp] theorem State.beginDispatch_targetIn (s : State) : (s.beginDispatch).targetIn = s.targetIn := rfl
@[simp] theorem State.beginDispatch_draws (s : State) : (s.beginDispatch).draws = s.draws := rfl
@[simp] theorem State.beginDispatch_phased (s : State) : (s.beginDispatch).phased = s.phased := rfl

/-! ### `hardReset`: everything but the build parameters and the inputs (R81) -/

@[simp] theorem State.hardReset_params (s : State) : (s.hardReset).params = s.params := rfl
@[simp] theorem State.hardReset_lineDataOut (s : State) : (s.hardReset).lineDataOut = State.reset.lineDataOut := rfl
@[simp] theorem State.hardReset_lineClock (s : State) : (s.hardReset).lineClock = State.reset.lineClock := rfl
@[simp] theorem State.hardReset_lineReset (s : State) : (s.hardReset).lineReset = State.reset.lineReset := rfl
@[simp] theorem State.hardReset_rsr (s : State) : (s.hardReset).rsr = State.reset.rsr := rfl
@[simp] theorem State.hardReset_resp (s : State) : (s.hardReset).resp = State.reset.resp := rfl
@[simp] theorem State.hardReset_reply (s : State) : (s.hardReset).reply = State.reset.reply := rfl
@[simp] theorem State.hardReset_rxbuf (s : State) : (s.hardReset).rxbuf = State.reset.rxbuf := rfl
@[simp] theorem State.hardReset_receiveOffset (s : State) : (s.hardReset).receiveOffset = State.reset.receiveOffset := rfl
@[simp] theorem State.hardReset_receiveSize (s : State) : (s.hardReset).receiveSize = State.reset.receiveSize := rfl
@[simp] theorem State.hardReset_busy (s : State) : (s.hardReset).busy = State.reset.busy := rfl
@[simp] theorem State.hardReset_txnIdx (s : State) : (s.hardReset).txnIdx = State.reset.txnIdx := rfl
@[simp] theorem State.hardReset_byteIdx (s : State) : (s.hardReset).byteIdx = State.reset.byteIdx := rfl
@[simp] theorem State.hardReset_bitIdx (s : State) : (s.hardReset).bitIdx = State.reset.bitIdx := rfl
@[simp] theorem State.hardReset_phase (s : State) : (s.hardReset).phase = State.reset.phase := rfl
@[simp] theorem State.hardReset_waitCnt (s : State) : (s.hardReset).waitCnt = State.reset.waitCnt := rfl
@[simp] theorem State.hardReset_trace (s : State) : (s.hardReset).trace = State.reset.trace := rfl
@[simp] theorem State.hardReset_answers (s : State) : (s.hardReset).answers = State.reset.answers := rfl
@[simp] theorem State.hardReset_rst (s : State) : (s.hardReset).rst = s.rst := rfl
@[simp] theorem State.hardReset_hostQueue (s : State) : (s.hardReset).hostQueue = s.hostQueue := rfl
@[simp] theorem State.hardReset_targetIn (s : State) : (s.hardReset).targetIn = s.targetIn := rfl
@[simp] theorem State.hardReset_draws (s : State) : (s.hardReset).draws = s.draws := rfl
@[simp] theorem State.hardReset_phased (s : State) : (s.hardReset).phased = s.phased := rfl

/-! ### `dataIn`: the next level the target's list gives, else a free value (R28) -/

theorem State.dataIn_cons {s : State} {v : Level} {vs : List Level} (h : s.targetIn = v :: vs) : s.dataIn = v := by
  simp [State.dataIn, h]

theorem State.dataIn_nil {s : State} (h : s.targetIn = []) : s.dataIn = Config.targetDraw s.draws s.trace := by
  simp [State.dataIn, h]

/-- The level a sample reads depends on three fields only. -/
theorem State.dataIn_congr {s t : State} (h1 : s.targetIn = t.targetIn) (h2 : s.draws = t.draws)
    (h3 : s.trace = t.trace) : s.dataIn = t.dataIn := by
  simp [State.dataIn, h1, h2, h3]

end Sys2Proof.Machine
end

