-- ==== Sys2Proof/Laws/Driver.lean ====
section
/-! SUPPORT. What the signal driver does (R42 to R44), once per operation: the state after it, with the levels its
samples read named. Callers cite these and unfold nothing. -/

namespace Sys2Proof.Machine

/-! ### The shift register -/

theorem shiftIn_eq_double : ∀ (r : Byte) (s : Level), shiftIn r s = r * 2 + (if s then 1 else 0) := by decide

/-- Shifting samples in adds their byte to what is left of the old contents. -/
theorem foldl_shiftIn (r : Byte) (ss : List Level) :
    ss.foldl shiftIn r = r * 2 ^ ss.length + byteOfSamples ss := by
  have key : ∀ (ss : List Level) (r : Byte),
      ss.foldl (fun r s => r * 2 + (if s then (1 : Byte) else 0)) r
        = r * 2 ^ ss.length + ss.foldl (fun r s => r * 2 + (if s then (1 : Byte) else 0)) 0 := by
    intro ss
    induction ss with
    | nil => intro r; simp
    | cons s ss ih =>
      intro r
      rw [List.foldl_cons, List.foldl_cons, ih, ih (0 * 2 + _), List.length_cons]
      ring
  have hf : shiftIn = fun r s => r * 2 + (if s then (1 : Byte) else 0) := by
    funext r s; exact shiftIn_eq_double r s
  rw [hf]
  exact key ss r

/-- Eight shifts replace the whole register: its old contents do not matter (R7, R43). -/
theorem foldl_shiftIn_eight (r : Byte) {ss : List Level} (h : ss.length = 8) :
    ss.foldl shiftIn r = byteOfSamples ss := by
  rw [foldl_shiftIn, h, show (2 : Byte) ^ 8 = 0 by decide, mul_zero, zero_add]

/-! ### One bit -/

/-- The level the sample of `transferBit v` reads. -/
def State.bitLevel (v : Level) (s : State) : Level := (((s.setLine .dataOut v).wait).setLine .clock true).dataIn

theorem State.bitLevel_cons {s : State} {l : Level} {ls : List Level} (h : s.targetIn = l :: ls) (v : Level) :
    s.bitLevel v = l := State.dataIn_cons (s := ((s.setLine .dataOut v).wait).setLine .clock true) h

theorem State.transferBit_eq (v : Level) (s : State) :
    s.transferBit v = { s with
      lineDataOut := v, lineClock := false, rsr := shiftIn s.rsr (s.bitLevel v),
      trace := (bitEvents v (s.bitLevel v)).reverse ++ s.trace,
      targetIn := s.targetIn.tail, draws := s.draws + 1 } := rfl

/-! ### A run of bits -/

/-- Send the bits of a list, first one first. -/
def State.sendBits : List Level → State → State
  | [], s => s
  | v :: vs, s => State.sendBits vs (s.transferBit v)

/-- The levels the samples of a run of bits read. -/
def State.levelsOf : List Level → State → List Level
  | [], _ => []
  | v :: vs, s => s.bitLevel v :: State.levelsOf vs (s.transferBit v)

@[simp] theorem State.length_levelsOf : ∀ (vs : List Level) (s : State), (State.levelsOf vs s).length = vs.length
  | [], _ => rfl
  | _ :: vs, s => congrArg (· + 1) (State.length_levelsOf vs (s.transferBit _))

/-- The samples read what the target's list gives, as far as it goes (R28). -/
theorem State.levelsOf_take : ∀ (vs : List Level) (s : State),
    (State.levelsOf vs s).take s.targetIn.length = s.targetIn.take vs.length
  | [], s => by simp [State.levelsOf]
  | v :: vs, s => by
    match h : s.targetIn with
    | [] => simp
    | l :: ls =>
      have ih := State.levelsOf_take vs (s.transferBit v)
      have ht : (s.transferBit v).targetIn = ls := by rw [State.transferBit_eq]; simp [h]
      rw [ht] at ih
      simp [State.levelsOf, State.bitLevel_cons h, ih]

theorem State.levelsOf_append : ∀ (vs ws : List Level) (s : State),
    State.levelsOf (vs ++ ws) s = State.levelsOf vs s ++ State.levelsOf ws (s.sendBits vs)
  | [], _, _ => rfl
  | v :: vs, ws, s => congrArg (s.bitLevel v :: ·) (State.levelsOf_append vs ws (s.transferBit v))

theorem State.sendBits_append : ∀ (vs ws : List Level) (s : State),
    s.sendBits (vs ++ ws) = (s.sendBits vs).sendBits ws
  | [], _, _ => rfl
  | _ :: vs, ws, s => State.sendBits_append vs ws (s.transferBit _)

theorem bitsEvents_cons (v s : Level) (vs ss : List Level) :
    bitsEvents (v :: vs) (s :: ss) = bitEvents v s ++ bitsEvents vs ss := rfl

theorem bitsEvents_append {vs ss : List Level} (h : vs.length = ss.length) (ws rs : List Level) :
    bitsEvents (vs ++ ws) (ss ++ rs) = bitsEvents vs ss ++ bitsEvents ws rs := by
  simp [bitsEvents, List.zipWith_append h]

/-- The state after a run of bits. -/
theorem State.sendBits_cons (v : Level) (vs : List Level) (s : State) :
    s.sendBits (v :: vs) = { s with
      lineDataOut := (v :: vs).getLast (List.cons_ne_nil v vs), lineClock := false,
      rsr := (State.levelsOf (v :: vs) s).foldl shiftIn s.rsr,
      trace := (bitsEvents (v :: vs) (State.levelsOf (v :: vs) s)).reverse ++ s.trace,
      targetIn := s.targetIn.drop (vs.length + 1), draws := s.draws + (vs.length + 1) } := by
  induction vs generalizing v s with
  | nil => simp [State.sendBits, State.levelsOf, State.transferBit_eq, bitsEvents]
  | cons w ws ih =>
    have hl : State.levelsOf (v :: w :: ws) s = s.bitLevel v :: State.levelsOf (w :: ws) (s.transferBit v) := rfl
    rw [State.sendBits, ih, hl, bitsEvents_cons]
    generalize State.levelsOf (w :: ws) (s.transferBit v) = ls
    rw [State.transferBit_eq]
    simp [Nat.add_assoc, Nat.add_comm 1]

/-! ### One byte and one transaction -/

theorem State.transferByte_eq_sendBits (b : Byte) (s : State) : s.transferByte b = s.sendBits (byteBits b) := rfl

/-- The levels the samples of `transferByte b` read. -/
def State.byteLevels (b : Byte) (s : State) : List Level := State.levelsOf (byteBits b) s

@[simp] theorem State.length_byteLevels (b : Byte) (s : State) : (s.byteLevels b).length = 8 :=
  State.length_levelsOf _ _

/-- The state after one byte (R43). -/
theorem State.transferByte_eq (b : Byte) (s : State) :
    s.transferByte b = { s with
      lineDataOut := b.getLsbD 0, lineClock := false, rsr := byteOfSamples (s.byteLevels b),
      trace := (bitsEvents (byteBits b) (s.byteLevels b)).reverse ++ s.trace,
      targetIn := s.targetIn.drop 8, draws := s.draws + 8 } := by
  have h := foldl_shiftIn_eight s.rsr (s.length_byteLevels b)
  rw [State.byteLevels] at h ⊢
  rw [State.transferByte_eq_sendBits, ← h]
  generalize hb : byteBits b = vs
  obtain ⟨v, ws, rfl⟩ : ∃ v ws, vs = v :: ws := ⟨_, _, hb.symm⟩
  have hlen : ws.length = 7 := by
    have := congrArg List.length hb
    simpa [byteBits] using this.symm
  have hlast : (v :: ws).getLast (List.cons_ne_nil v ws) = b.getLsbD 0 := by
    simp only [← hb]; rfl
  rw [State.sendBits_cons, hlast, hlen]

/-- Writing `resp` changes nothing the driver reads. -/
theorem State.levelsOf_putResp (j : Fin 4) (x : Byte) : ∀ (vs : List Level) (s : State),
    State.levelsOf vs (s.putResp j x) = State.levelsOf vs s
  | [], _ => rfl
  | v :: vs, s => congrArg (s.bitLevel v :: ·) (State.levelsOf_putResp j x vs (s.transferBit v))

/-- The state after one byte of a transaction (R44). -/
theorem State.transferInto_eq (j : Fin 4) (b : Byte) (s : State) :
    s.transferInto j b = { s with
      lineDataOut := b.getLsbD 0, lineClock := false, rsr := byteOfSamples (s.byteLevels b),
      resp := s.resp.put j (byteOfSamples (s.byteLevels b)),
      trace := (bitsEvents (byteBits b) (s.byteLevels b)).reverse ++ s.trace,
      targetIn := s.targetIn.drop 8, draws := s.draws + 8 } := by
  rw [State.transferInto, State.transferByte_eq]
  rfl

/-- The levels the 32 samples of `issueCommand c` read. -/
def State.quadLevels (c : Quad) (s : State) : List Level := State.levelsOf (quadBits c) s

@[simp] theorem State.length_quadLevels (c : Quad) (s : State) : (s.quadLevels c).length = 32 :=
  State.length_levelsOf _ _

theorem State.quadLevels_take (c : Quad) (s : State) :
    (s.quadLevels c).take s.targetIn.length = s.targetIn.take 32 := State.levelsOf_take _ _

theorem take_append_exact {α : Type} {n : Nat} {as : List α} (bs : List α) (h : as.length = n) :
    (as ++ bs).take n = as := by subst h; simp

theorem drop_append_exact {α : Type} {n : Nat} {as : List α} (bs : List α) (h : as.length = n) :
    (as ++ bs).drop n = bs := by subst h; simp

/-- The levels of a transaction are those of its four bytes, each read in the state the bytes before it left. -/
theorem State.quadLevels_eq (c : Quad) (s : State) :
    s.quadLevels c = s.byteLevels c.b0 ++ ((s.transferInto 0 c.b0).byteLevels c.b1
      ++ (((s.transferInto 0 c.b0).transferInto 1 c.b1).byteLevels c.b2
      ++ (((s.transferInto 0 c.b0).transferInto 1 c.b1).transferInto 2 c.b2).byteLevels c.b3)) := by
  have hput : ∀ (j : Fin 4) (x : Byte) (vs : List Level) (t : State),
      (t.putResp j x).sendBits vs = (t.sendBits vs).putResp j x := by
    intro j x vs
    induction vs with
    | nil => intro t; rfl
    | cons v vs ih => intro t; exact ih (t.transferBit v)
  simp only [State.quadLevels, quadBits, List.append_assoc, State.levelsOf_append, State.byteLevels,
    State.transferInto, State.levelsOf_putResp, State.transferByte_eq_sendBits, hput]

/-- The state after one transaction (R44): 192 events, 32 draws, the four response bytes in `resp`. -/
theorem State.issueCommand_eq (c : Quad) (s : State) :
    s.issueCommand c = { s with
      lineDataOut := c.b3.getLsbD 0, lineClock := false, rsr := (responseOf (s.quadLevels c)).b3,
      resp := responseOf (s.quadLevels c),
      trace := (traceOf c (s.quadLevels c)).reverse ++ s.trace,
      targetIn := s.targetIn.drop 32, draws := s.draws + 32 } := by
  have h := State.quadLevels_eq c s
  generalize hl0 : s.byteLevels c.b0 = l0 at h
  generalize hl1 : (s.transferInto 0 c.b0).byteLevels c.b1 = l1 at h
  generalize hl2 : ((s.transferInto 0 c.b0).transferInto 1 c.b1).byteLevels c.b2 = l2 at h
  generalize hl3 : (((s.transferInto 0 c.b0).transferInto 1 c.b1).transferInto 2 c.b2).byteLevels c.b3 = l3 at h
  have n0 : l0.length = 8 := hl0 ▸ State.length_byteLevels _ _
  have n1 : l1.length = 8 := hl1 ▸ State.length_byteLevels _ _
  have n2 : l2.length = 8 := hl2 ▸ State.length_byteLevels _ _
  have n3 : l3.length = 8 := hl3 ▸ State.length_byteLevels _ _
  have hresp : responseOf (l0 ++ (l1 ++ (l2 ++ l3)))
      = ⟨byteOfSamples l0, byteOfSamples l1, byteOfSamples l2, byteOfSamples l3⟩ := by
    have d1 := drop_append_exact (l1 ++ (l2 ++ l3)) n0
    have d2 : (l0 ++ (l1 ++ (l2 ++ l3))).drop 16 = l2 ++ l3 := by
      rw [show (16 : Nat) = 8 + 8 by rfl, ← List.drop_drop, d1, drop_append_exact _ n1]
    have d3 : (l0 ++ (l1 ++ (l2 ++ l3))).drop 24 = l3 := by
      rw [show (24 : Nat) = 16 + 8 by rfl, ← List.drop_drop, d2, drop_append_exact _ n2]
    rw [responseOf, take_append_exact _ n0, d1, take_append_exact _ n1, d2, take_append_exact _ n2, d3,
      List.take_of_length_le (by omega)]
  have htrace : traceOf c (l0 ++ (l1 ++ (l2 ++ l3)))
      = bitsEvents (byteBits c.b0) l0 ++ (bitsEvents (byteBits c.b1) l1
        ++ (bitsEvents (byteBits c.b2) l2 ++ bitsEvents (byteBits c.b3) l3)) := by
    rw [traceOf, quadBits, List.append_assoc, List.append_assoc, bitsEvents_append (by rw [n0]; rfl),
      bitsEvents_append (by rw [n1]; rfl), bitsEvents_append (by rw [n2]; rfl)]
  rw [h, hresp, htrace, State.issueCommand, State.transferInto_eq 3, hl3, State.transferInto_eq 2, hl2,
    State.transferInto_eq 1, hl1, State.transferInto_eq 0, hl0]
  simp [Quad.put, List.drop_drop]

end Sys2Proof.Machine
end

