-- ==== Sys2Proof/Laws/HostCommands.lean ====
section
/-! SUPPORT. Cutting a write into chunks (R3, R51): nothing is lost and no chunk is longer than asked. -/

namespace Sys2Proof.Machine

/-- The chunks hold exactly the bytes, in order. -/
theorem flatten_cutChunks {n : Nat} (hn : 1 ≤ n) : ∀ {fuel : Nat} {bs : List Byte}, bs.length ≤ fuel →
    (cutChunks n fuel bs).flatten = bs
  | 0, [], _ => rfl
  | _ + 1, [], _ => rfl
  | fuel + 1, b :: bs, h => by
    have hl : ((b :: bs).drop n).length ≤ fuel := by
      rw [List.length_drop, List.length_cons] at *
      omega
    rw [cutChunks, List.flatten_cons, flatten_cutChunks hn hl, List.take_append_drop]

/-- No chunk is longer than asked. -/
theorem length_of_mem_cutChunks {n : Nat} : ∀ {fuel : Nat} {bs c : List Byte}, c ∈ cutChunks n fuel bs → c.length ≤ n
  | fuel + 1, b :: bs, c, h => by
    rcases List.mem_cons.mp h with rfl | h
    · rw [List.length_take]; exact Nat.min_le_left _ _
    · exact length_of_mem_cutChunks h

end Sys2Proof.Machine
end

