-- ==== Sys2Proof/Laws/Issue.lean ====
section
/-! SUPPORT. What a sequence of transactions does (R62): the state after it, with the levels its samples read named. -/

namespace Sys2Proof.Machine

/-- One transaction with its reply stored (R61). -/
theorem State.issueAndStore_eq (c : Quad) (s : State) :
    (s.issueCommand c).storeReply = { s with
      lineDataOut := c.b3.getLsbD 0, lineClock := false, rsr := (responseOf (s.quadLevels c)).b3,
      resp := responseOf (s.quadLevels c), reply := responseOf (s.quadLevels c),
      trace := (traceOf c (s.quadLevels c)).reverse ++ s.trace,
      targetIn := s.targetIn.drop 32, draws := s.draws + 32 } := by
  rw [State.issueCommand_eq]
  rfl

/-- The levels the samples of a sequence of transactions read, transaction by transaction. -/
def State.allLevels : List Quad → State → List (List Level)
  | [], _ => []
  | c :: cs, s => s.quadLevels c :: State.allLevels cs (s.issueCommand c).storeReply

@[simp] theorem State.length_allLevels : ∀ (cs : List Quad) (s : State), (State.allLevels cs s).length = cs.length
  | [], _ => rfl
  | c :: cs, s => congrArg (· + 1) (State.length_allLevels cs (s.issueCommand c).storeReply)

theorem State.length_of_mem_allLevels : ∀ {cs : List Quad} {s : State} {ls : List Level},
    ls ∈ State.allLevels cs s → ls.length = 32
  | c :: cs, s, ls, h => by
    rcases List.mem_cons.mp h with rfl | h
    · exact State.length_quadLevels c s
    · exact State.length_of_mem_allLevels h

/-- The samples read what the target's list gives, as far as it goes (R28). -/
theorem State.allLevels_take : ∀ (cs : List Quad) (s : State),
    (State.allLevels cs s).flatten.take s.targetIn.length = s.targetIn.take (32 * cs.length)
  | [], s => by simp [State.allLevels]
  | c :: cs, s => by
    have ih := State.allLevels_take cs (s.issueCommand c).storeReply
    have ht : (s.issueCommand c).storeReply.targetIn = s.targetIn.drop 32 := by rw [State.issueAndStore_eq]
    rw [ht, List.length_drop] at ih
    rw [State.allLevels, List.flatten_cons, List.take_append, State.length_quadLevels, ih, State.quadLevels_take,
      List.length_cons, show 32 * (cs.length + 1) = 32 + 32 * cs.length by ring, List.take_add]

theorem State.length_flatten_allLevels : ∀ (cs : List Quad) (s : State),
    (State.allLevels cs s).flatten.length = 32 * cs.length
  | [], _ => rfl
  | c :: cs, s => by
    rw [State.allLevels, List.flatten_cons, List.length_append, State.length_quadLevels,
      State.length_flatten_allLevels, List.length_cons]
    ring

/-- The state after a nonempty sequence of transactions (R62): only the last reply survives. -/
theorem State.issueAll_cons (c : Quad) (cs : List Quad) (s : State) :
    s.issueAll (c :: cs) = { s with
      lineDataOut := ((c :: cs).getLast (List.cons_ne_nil c cs)).b3.getLsbD 0
      lineClock := false
      rsr := (responseOf ((State.allLevels (c :: cs) s).getLastD [])).b3
      resp := responseOf ((State.allLevels (c :: cs) s).getLastD [])
      reply := responseOf ((State.allLevels (c :: cs) s).getLastD [])
      trace := ((List.zipWith traceOf (c :: cs) (State.allLevels (c :: cs) s)).flatten).reverse ++ s.trace
      targetIn := s.targetIn.drop (32 * (c :: cs).length)
      draws := s.draws + 32 * (c :: cs).length } := by
  induction cs generalizing c s with
  | nil => simp [State.issueAll, State.allLevels, State.issueAndStore_eq]
  | cons d ds ih =>
    have hl : State.allLevels (c :: d :: ds) s
        = s.quadLevels c :: State.allLevels (d :: ds) (s.issueCommand c).storeReply := rfl
    have hne : State.allLevels (d :: ds) (s.issueCommand c).storeReply ≠ [] := by simp [State.allLevels]
    rw [State.issueAll, ih, hl]
    generalize State.allLevels (d :: ds) (s.issueCommand c).storeReply = lss at hne ⊢
    rw [State.issueAndStore_eq]
    obtain ⟨l, ls, rfl⟩ := List.exists_cons_of_ne_nil hne
    simp only [List.getLast_cons_cons, List.getLastD_cons, List.zipWith_cons_cons, List.flatten_cons,
      List.reverse_append, List.append_assoc, List.drop_drop, List.length_cons]
    simp only [State.mk.injEq, true_and, and_true]
    refine ⟨?_, ?_⟩
    · congr 1; omega
    · omega

end Sys2Proof.Machine
end

