-- ==== Sys2Proof/Laws/Memory.lean ====
section
/-! SUPPORT. The receive buffer as a canonical list: a read after a store, and that every store keeps the canonical
form. -/

namespace Sys2Proof.Machine

@[simp] theorem Memory.load_nil (i : Nat) : Memory.load [] i = Memory.unlisted := rfl

theorem Memory.load_cons (a : Nat) (b : Byte) (m : Memory) (i : Nat) :
    Memory.load ((a, b) :: m) i = if a = i then b else Memory.load m i := rfl

theorem Memory.wfFrom_cons {lo a : Nat} {b : Byte} {m : Memory} :
    Memory.wfFrom lo ((a, b) :: m) = true ↔
      lo ≤ a ∧ a < rxbufLen ∧ b ≠ Memory.unlisted ∧ Memory.wfFrom (a + 1) m = true := by
  simp [Memory.wfFrom, and_assoc]

theorem Memory.wfFrom_mono {lo lo' : Nat} (h : lo' ≤ lo) : ∀ {m : Memory}, Memory.wfFrom lo m = true →
    Memory.wfFrom lo' m = true
  | [], _ => rfl
  | (_, _) :: _, hm => by
    obtain ⟨h1, h2⟩ := Memory.wfFrom_cons.mp hm
    exact Memory.wfFrom_cons.mpr ⟨h.trans h1, h2⟩

/-- Below the first index of a canonical list nothing is listed. -/
theorem Memory.load_below : ∀ {m : Memory} {lo i : Nat}, Memory.wfFrom lo m = true → i < lo →
    Memory.load m i = Memory.unlisted
  | [], _, _, _, _ => rfl
  | (a, b) :: m, lo, i, hm, hi => by
    obtain ⟨h1, -, -, h4⟩ := Memory.wfFrom_cons.mp hm
    rw [Memory.load_cons, if_neg (by omega)]
    exact Memory.load_below h4 (by omega)

/-- A read after a store: the stored byte at its index, every other index as before. -/
theorem Memory.load_store : ∀ {m : Memory} {lo : Nat} (i : Nat) (v : Byte) (k : Nat), Memory.wfFrom lo m = true →
    Memory.load (Memory.store m i v) k = if k = i then v else Memory.load m k
  | [], _, i, v, k, _ => by
    by_cases hv : v = Memory.unlisted <;> by_cases hk : k = i <;>
      simp [Memory.store, hv, Memory.load_cons, hk, Ne.symm]
  | (a, b) :: m, lo, i, v, k, hm => by
    obtain ⟨-, -, -, h4⟩ := Memory.wfFrom_cons.mp hm
    have hbelow : ∀ j, j < a + 1 → Memory.load m j = Memory.unlisted := fun j hj => Memory.load_below h4 hj
    unfold Memory.store
    split
    · rename_i hlt
      split
      · rename_i hv
        by_cases hk : k = i
        · subst hk
          rw [Memory.load_cons, if_neg (by omega), hbelow k (by omega), if_pos rfl, hv]
        · rw [if_neg hk]
      · rw [Memory.load_cons]
        simp only [eq_comm]
    · split
      · rename_i hia
        subst hia
        split
        · rename_i hv
          by_cases hk : k = i
          · subst hk
            rw [hbelow k (by omega), if_pos rfl, hv]
          · rw [if_neg hk, Memory.load_cons, if_neg (Ne.symm hk)]
        · by_cases hk : k = i
          · simp [Memory.load_cons, hk]
          · rw [Memory.load_cons, if_neg (Ne.symm hk), if_neg hk, Memory.load_cons, if_neg (Ne.symm hk)]
      · rename_i hlt hne
        rw [Memory.load_cons, Memory.load_cons, Memory.load_store i v k h4]
        by_cases hk : k = i
        · rw [if_neg (by omega), if_pos hk, if_pos hk]
        · simp [hk]

/-- A store inside the buffer keeps the canonical form. -/
theorem Memory.wfFrom_store : ∀ {m : Memory} {lo i : Nat} (v : Byte), Memory.wfFrom lo m = true → lo ≤ i →
    i < rxbufLen → Memory.wfFrom lo (Memory.store m i v) = true
  | [], lo, i, v, _, h1, h2 => by
    unfold Memory.store
    split
    · rfl
    · rename_i hv
      exact Memory.wfFrom_cons.mpr ⟨h1, h2, hv, rfl⟩
  | (a, b) :: m, lo, i, v, hm, h1, h2 => by
    obtain ⟨ha, hb, hc, hd⟩ := Memory.wfFrom_cons.mp hm
    unfold Memory.store
    split
    · rename_i hlt
      split
      · exact hm
      · rename_i hv
        exact Memory.wfFrom_cons.mpr ⟨h1, h2, hv, Memory.wfFrom_cons.mpr ⟨hlt, hb, hc, hd⟩⟩
    · split
      · rename_i hia
        subst hia
        split
        · exact Memory.wfFrom_mono (by omega) hd
        · rename_i hv
          exact Memory.wfFrom_cons.mpr ⟨h1, h2, hv, hd⟩
      · rename_i hlt hne
        exact Memory.wfFrom_cons.mpr ⟨ha, hb, hc, Memory.wfFrom_store v hd (by omega) h2⟩

theorem Memory.wf_store {m : Memory} {i : Nat} (v : Byte) (hm : m.wf = true) (hi : i < rxbufLen) :
    (Memory.store m i v).wf = true := Memory.wfFrom_store v hm (Nat.zero_le _) hi

/-- An ascending store inside the buffer keeps the canonical form. -/
theorem Memory.wf_storeAll : ∀ {m : Memory} {i : Nat} (bs : List Byte), m.wf = true → i + bs.length ≤ rxbufLen →
    (Memory.storeAll m i bs).wf = true
  | _, _, [], hm, _ => hm
  | _, i, b :: bs, hm, h => by
    rw [List.length_cons] at h
    exact Memory.wf_storeAll bs (Memory.wf_store b hm (by omega)) (by omega)

/-- A read after an ascending store: the stored bytes at their indices, every other index as before. -/
theorem Memory.load_storeAll : ∀ {m : Memory} {i : Nat} (bs : List Byte) (k : Nat), m.wf = true →
    i + bs.length ≤ rxbufLen →
    Memory.load (Memory.storeAll m i bs) k = if i ≤ k then bs.getD (k - i) (Memory.load m k) else Memory.load m k
  | m, i, [], k, _, _ => by simp [Memory.storeAll]
  | m, i, b :: bs, k, hm, h => by
    rw [List.length_cons] at h
    have hput := Memory.load_store i b k hm
    rw [Memory.storeAll, Memory.load_storeAll bs k (Memory.wf_store b hm (by omega)) (by omega), hput]
    rcases lt_trichotomy k i with hk | hk | hk
    · rw [if_neg (by omega), if_neg (by omega), if_neg (by omega)]
    · subst hk; simp
    · rw [if_pos (by omega), if_neg (by omega), if_pos (by omega)]
      obtain ⟨j, rfl⟩ : ∃ j, k = i + 1 + j := ⟨k - (i + 1), by omega⟩
      rw [show i + 1 + j - i = j + 1 by omega, show i + 1 + j - (i + 1) = j by omega]
      rfl

/-- Two ascending stores one after the other are one. -/
theorem Memory.storeAll_append : ∀ (m : Memory) (i : Nat) (as bs : List Byte),
    Memory.storeAll m i (as ++ bs) = Memory.storeAll (Memory.storeAll m i as) (i + as.length) bs
  | _, _, [], _ => rfl
  | m, i, a :: as, bs => by
    rw [List.cons_append, Memory.storeAll, Memory.storeAll_append, Memory.storeAll, List.length_cons]
    congr 1
    omega

end Sys2Proof.Machine
end

