-- ==== Sys2Proof/Laws/Params.lean ====
section
/-! SUPPORT. The constraints on the parameters, one by one (R3), and that the default parameters meet them. -/

namespace Sys2Proof

theorem Params.wf_opcodes {p : Params} (h : p.wf = true) : p.opcResetDevice ≠ p.opcIspCommand := by
  simp [Params.wf] at h; tauto

theorem Params.wf_batchBase {p : Params} (h : p.wf = true) : 4 ≤ p.batchBase ∧ p.batchBase ≤ 9 := by
  simp [Params.wf] at h; tauto

theorem Params.wf_settleCycles {p : Params} (h : p.wf = true) : 1 ≤ p.settleCycles := by
  simp [Params.wf] at h; tauto

theorem Params.wf_maxChunk {p : Params} (h : p.wf = true) : 1 ≤ p.maxChunk := by
  simp [Params.wf] at h; tauto

theorem Params.wf_statusValues {p : Params} (h : p.wf = true) : p.statusAsserted ≠ p.statusDeasserted := by
  simp [Params.wf] at h; tauto

/-- The report 1 offsets lie in 1 to 6 and do not overlap (R32). -/
theorem Params.wf_report {p : Params} (h : p.wf = true) :
    (1 ≤ p.r1StatusOff ∧ p.r1StatusOff ≤ 6) ∧ (1 ≤ p.r1SeqOff ∧ p.r1SeqOff ≤ 6)
      ∧ (1 ≤ p.r1ReplyOff ∧ p.r1ReplyOff ≤ 3) ∧ p.r1StatusOff ≠ p.r1SeqOff
      ∧ (p.r1StatusOff < p.r1ReplyOff ∨ p.r1ReplyOff + 4 ≤ p.r1StatusOff)
      ∧ (p.r1SeqOff < p.r1ReplyOff ∨ p.r1ReplyOff + 4 ≤ p.r1SeqOff) := by
  simp [Params.wf] at h; tauto

/-- A positive hold and a positive clock give at least one settle cycle (R3). -/
theorem Params.settleCycles_pos {p : Params} (ht : 0 < p.tSettleNs) (hf : 0 < p.fClkHz) : 1 ≤ p.settleCycles := by
  have h : 0 < p.tSettleNs * p.fClkHz := Nat.mul_pos ht hf
  rw [Params.settleCycles, Nat.le_div_iff_mul_le (by norm_num)]
  omega

theorem Machine.defaultParams_wf : Machine.defaultParams.wf = true := by
  have h : 1 ≤ Machine.defaultParams.settleCycles :=
    Params.settleCycles_pos (Nat.succ_pos _) (Nat.succ_pos _)
  have hm : 1 ≤ Machine.defaultParams.maxChunk := Nat.succ_pos _
  rw [Params.wf, decide_eq_true h, decide_eq_true hm]
  rfl

end Sys2Proof
end

