-- ==== Sys2Proof/Laws/PerInstr.lean ====
section
/-! SUPPORT. Statements made per instruction. Family EncodedLength: the bytes of a well-formed instruction are as many
as its layout has (R29, R39). -/

namespace Sys2Proof.Laws.EncodedLength

/-- The encoding has the length of the layout. -/
def Statement (i : Instr) : Prop :=
  ∀ p : Params, i.wf p = true → (encode p i).length = formatLength i.format

theorem length_of_fullBody {body : List Byte} (h : fullBody body = true) : body.length = 129 := by
  simpa [fullBody, Machine.batchBodyLen] using h

theorem resetDeviceS (r q f x1 x2 x3 : Byte) : Statement (.resetDeviceS r q f x1 x2 x3) := fun _ _ => rfl

theorem resetDeviceB (r q f : Byte) (body : List Byte) : Statement (.resetDeviceB r q f body) := by
  intro p h
  simp only [Instr.wf] at h
  simp [encode, Instr.format, formatLength, length_of_fullBody h]

theorem ispCommandS (r q : Byte) (c : Quad) : Statement (.ispCommandS r q c) := fun _ _ => rfl

theorem ispCommandB (r q n : Byte) (body : List Byte) : Statement (.ispCommandB r q n body) := by
  intro p h
  simp only [Instr.wf] at h
  simp [encode, Instr.format, formatLength, length_of_fullBody h]

theorem unknownS (r q o x0 x1 x2 x3 : Byte) : Statement (.unknownS r q o x0 x1 x2 x3) := fun _ _ => rfl

theorem unknownB (r q o x : Byte) (body : List Byte) : Statement (.unknownB r q o x body) := by
  intro p h
  simp only [Instr.wf, Bool.and_eq_true] at h
  simp [encode, Instr.format, formatLength, length_of_fullBody h.2]

theorem statusRead : Statement .statusRead := fun _ _ => rfl

theorem ispTransaction (c : Quad) : Statement (.ispTransaction c) := fun _ _ => rfl

end Sys2Proof.Laws.EncodedLength
end

