-- ==== Sys2Proof/Laws/Ports.lean ====
section
/-! SUPPORT. What the read port shows (R16): an answer, or a free value while the answer is empty. -/

namespace Sys2Proof.Machine

@[simp] theorem State.lastAnswer_answer (a : List Byte) (s : State) : (s.answer a).lastAnswer = a := rfl

theorem State.readData_of_answer {s : State} {a : List Byte} (h : s.lastAnswer = a) (ha : a ≠ []) :
    s.readData = packAnswer a := by
  cases a with
  | nil => exact absurd rfl ha
  | cons b bs => rw [State.readData, h]

theorem State.readData_of_empty {s : State} (h : s.lastAnswer = []) :
    s.readData = Config.readDataWhenEmpty s.answers.length := by
  rw [State.readData, h]

end Sys2Proof.Machine
end

