-- ==== Sys2Proof/Laws/Sequencer.lean ====
section
/-! SUPPORT. What one phase step and a run of phase steps do (R13, R42, R79): the frame of each operation of the
sequencing state, the hold, and one whole bit as phase steps. -/

namespace Sys2Proof.Machine

/-! ### What the end of a bit, a byte, a transaction leaves -/

theorem State.endTransaction_of_more {s : State} (h : s.txnIdx.val + 1 < s.transactionTotal) :
    s.endTransaction = { s with reply := s.resp, txnIdx := s.txnIdx + 1 } := by
  rw [State.endTransaction, if_pos h]; rfl

theorem State.endTransaction_of_last {s : State} (h : ¬ s.txnIdx.val + 1 < s.transactionTotal) :
    s.endTransaction = { s with reply := s.resp, txnIdx := 0, busy := false } := by
  rw [State.endTransaction, if_neg h]; rfl

/-- The end of a transaction writes `reply`, `txnIdx` and `busy` and nothing else. -/
theorem State.endTransaction_frame (s : State) : ∃ (x : Fin 32) (b : Bool),
    s.endTransaction = { s with reply := s.resp, txnIdx := x, busy := b } := by
  by_cases h : s.txnIdx.val + 1 < s.transactionTotal
  · exact ⟨_, s.busy, State.endTransaction_of_more h⟩
  · exact ⟨0, false, State.endTransaction_of_last h⟩

/-- The end of a byte writes `resp`, `byteIdx`, and what the end of a transaction writes. -/
theorem State.endByte_frame (s : State) : ∃ (q p : Quad) (j : Fin 4) (x : Fin 32) (b : Bool),
    s.endByte = { s with resp := q, reply := p, byteIdx := j, txnIdx := x, busy := b } := by
  unfold State.endByte
  split
  · exact ⟨_, s.reply, _, s.txnIdx, s.busy, rfl⟩
  · obtain ⟨x, b, h⟩ := State.endTransaction_frame { s.putResp s.byteIdx s.rsr with byteIdx := 0 }
    exact ⟨_, _, 0, x, b, h⟩

/-- The end of a bit writes `bitIdx`, `phase`, and what the end of a byte writes. -/
theorem State.endBit_frame (s : State) :
    ∃ (q p : Quad) (j : Fin 4) (x : Fin 32) (b : Bool) (k : Fin 8),
      s.endBit = { s with
        resp := q, reply := p, byteIdx := j, txnIdx := x, busy := b, bitIdx := k, phase := .driveData } := by
  unfold State.endBit
  split
  · exact ⟨s.resp, s.reply, s.byteIdx, s.txnIdx, s.busy, _, rfl⟩
  · obtain ⟨q, p, j, x, b, h⟩ := State.endByte_frame { s with bitIdx := 7, phase := .driveData }
    exact ⟨q, p, j, x, b, 7, h⟩

/-- One count of a hold writes `trace`, `waitCnt` and `phase` and nothing else. -/
theorem State.settleStep_frame (n : Phase) (s : State) : ∃ (es : List LineEvent) (w : Nat) (ph : Phase),
    s.settleStep n = { s with trace := es ++ s.trace, waitCnt := w, phase := ph } ∧ (ph = n ∨ ph = s.phase) := by
  unfold State.settleStep
  by_cases h0 : s.waitCnt = 0 <;> by_cases h : s.waitCnt + 1 < s.params.settleCycles
  · rw [if_pos h, if_pos h0]; exact ⟨[.settle], _, s.phase, rfl, .inr rfl⟩
  · rw [if_neg h, if_pos h0]; exact ⟨[.settle], _, n, rfl, .inl rfl⟩
  · rw [if_pos h, if_neg h0]; exact ⟨[], _, s.phase, rfl, .inr rfl⟩
  · rw [if_neg h, if_neg h0]; exact ⟨[], _, n, rfl, .inl rfl⟩

/-- What a phase step leaves alone: the parameters, the receive buffer and its registers, the reset line, the answers,
the inputs of the host, the stepping mode. -/
theorem State.phaseStep_keeps (s : State) :
    s.phaseStep.params = s.params ∧ s.phaseStep.rxbuf = s.rxbuf ∧ s.phaseStep.receiveOffset = s.receiveOffset
      ∧ s.phaseStep.receiveSize = s.receiveSize ∧ s.phaseStep.lineReset = s.lineReset
      ∧ s.phaseStep.answers = s.answers ∧ s.phaseStep.rst = s.rst ∧ s.phaseStep.hostQueue = s.hostQueue
      ∧ s.phaseStep.phased = s.phased := by
  unfold State.phaseStep
  split
  · exact ⟨rfl, rfl, rfl, rfl, rfl, rfl, rfl, rfl, rfl⟩
  · obtain ⟨_, _, _, h, -⟩ := State.settleStep_frame .raiseClock s
    rw [h]; exact ⟨rfl, rfl, rfl, rfl, rfl, rfl, rfl, rfl, rfl⟩
  · exact ⟨rfl, rfl, rfl, rfl, rfl, rfl, rfl, rfl, rfl⟩
  · exact ⟨rfl, rfl, rfl, rfl, rfl, rfl, rfl, rfl, rfl⟩
  · obtain ⟨_, _, _, h, -⟩ := State.settleStep_frame .lowerClock s
    rw [h]; exact ⟨rfl, rfl, rfl, rfl, rfl, rfl, rfl, rfl, rfl⟩
  · obtain ⟨_, _, _, _, _, _, h⟩ := State.endBit_frame (s.setLine .clock false)
    rw [h]; exact ⟨rfl, rfl, rfl, rfl, rfl, rfl, rfl, rfl, rfl⟩

/-- A phase step only appends to the trace (R49). -/
theorem State.phaseStep_trace (s : State) : ∃ es, s.phaseStep.trace = es ++ s.trace := by
  unfold State.phaseStep
  split
  · exact ⟨[_], rfl⟩
  · obtain ⟨es, _, _, h, -⟩ := State.settleStep_frame .raiseClock s
    exact ⟨es, by rw [h]⟩
  · exact ⟨[_], rfl⟩
  · exact ⟨[_], rfl⟩
  · obtain ⟨es, _, _, h, -⟩ := State.settleStep_frame .lowerClock s
    exact ⟨es, by rw [h]⟩
  · obtain ⟨_, _, _, _, _, _, h⟩ := State.endBit_frame (s.setLine .clock false)
    exact ⟨[.clock false], by rw [h]; rfl⟩

/-! ### Runs of phase steps -/

theorem State.phaseSteps_of_not_busy : ∀ (n : Nat) {s : State}, s.busy = false → State.phaseSteps n s = s
  | 0, _, _ => rfl
  | n + 1, s, h => by rw [State.phaseSteps, h]; rfl

theorem State.phaseSteps_succ (n : Nat) {s : State} (h : s.busy = true) :
    State.phaseSteps (n + 1) s = State.phaseSteps n s.phaseStep := by
  rw [State.phaseSteps, h]; rfl

theorem State.phaseSteps_add : ∀ (m n : Nat) (s : State),
    State.phaseSteps (m + n) s = State.phaseSteps n (State.phaseSteps m s)
  | 0, n, s => by rw [Nat.zero_add]; rfl
  | m + 1, n, s => by
    by_cases h : s.busy = true
    · rw [Nat.add_right_comm, State.phaseSteps_succ _ h, State.phaseSteps_succ _ h, State.phaseSteps_add]
    · have h := Bool.eq_false_iff.mpr h
      rw [State.phaseSteps_of_not_busy _ h, State.phaseSteps_of_not_busy _ h, State.phaseSteps_of_not_busy _ h]

/-- The rest of a hold that has begun: `SETTLE_CYCLES - waitCnt` counts, no event. -/
theorem State.phaseSteps_hold_rest (nx : Phase) : ∀ (n : Nat) (s : State), s.busy = true →
    (∀ t : State, t.phase = s.phase → t.phaseStep = t.settleStep nx) →
    s.waitCnt ≠ 0 → s.waitCnt + (n + 1) = s.params.settleCycles →
    State.phaseSteps (n + 1) s = { s with waitCnt := 0, phase := nx }
  | 0, s, hb, hs, h0, hn => by
    rw [State.phaseSteps_succ _ hb, hs s rfl, State.settleStep, if_neg (by omega), if_neg h0]
    rfl
  | n + 1, s, hb, hs, h0, hn => by
    rw [State.phaseSteps_succ _ hb, hs s rfl, State.settleStep, if_pos (by omega), if_neg h0]
    exact State.phaseSteps_hold_rest nx n _ hb hs (Nat.succ_ne_zero _) (by simp only; omega)

/-- A whole hold: `SETTLE_CYCLES` phase steps are one `Wait(T_SETTLE)` (R41, R79). -/
theorem State.phaseSteps_hold {nx : Phase} {c : Nat} {s : State} (hb : s.busy = true)
    (hs : ∀ t : State, t.phase = s.phase → t.phaseStep = t.settleStep nx)
    (h0 : s.waitCnt = 0) (hc : 1 ≤ c) (he : s.params.settleCycles = c) :
    State.phaseSteps c s = { s.wait with waitCnt := 0, phase := nx } := by
  obtain ⟨n, rfl⟩ : ∃ n, c = n + 1 := ⟨_, (Nat.sub_add_cancel hc).symm⟩
  rw [State.phaseSteps_succ _ hb, hs s rfl]
  match n, he with
  | 0, he =>
    rw [State.settleStep, if_neg (by omega), if_pos h0]
    rfl
  | n + 1, he =>
    rw [State.settleStep, if_pos (by omega), if_pos h0]
    refine State.phaseSteps_hold_rest nx n _ hb hs (Nat.succ_ne_zero _) ?_
    show s.waitCnt + 1 + (n + 1) = s.params.settleCycles
    omega

theorem State.phaseSteps_trans {m n : Nat} {s t u : State} (h1 : State.phaseSteps m s = t)
    (h2 : State.phaseSteps n t = u) : State.phaseSteps (m + n) s = u := by
  rw [State.phaseSteps_add, h1, h2]

/-- Standing at the first phase of a bit. -/
def State.standAt (x : Fin 32) (j : Fin 4) (k : Fin 8) (s : State) : State :=
  { s with txnIdx := x, byteIdx := j, bitIdx := k, phase := .driveData, waitCnt := 0 }

theorem State.phaseSteps_one {s : State} (hb : s.busy = true) : State.phaseSteps 1 s = s.phaseStep :=
  State.phaseSteps_succ 0 hb

/-- One bit as phase steps: four single phases and two holds are `transferBit` of the bit in progress (R42). -/
theorem State.phaseSteps_bit {s : State} (x : Fin 32) (j : Fin 4) (k : Fin 8) (hb : s.busy = true)
    (hc : 1 ≤ s.params.settleCycles) :
    State.phaseSteps (4 + 2 * s.params.settleCycles) (s.standAt x j k)
      = ((s.transferBit ((s.standAt x j k).commandByte.getLsbD k)).standAt x j k).endBit := by
  generalize hn : s.params.settleCycles = n at hc
  rw [show 4 + 2 * n = 1 + (n + (1 + (1 + (n + 1)))) by ring]
  refine State.phaseSteps_trans (State.phaseSteps_one hb) ?_
  refine State.phaseSteps_trans
    (State.phaseSteps_hold (nx := .raiseClock) hb (fun t ht => by rw [State.phaseStep, ht]; rfl) rfl hc hn) ?_
  refine State.phaseSteps_trans (State.phaseSteps_one hb) ?_
  refine State.phaseSteps_trans (State.phaseSteps_one hb) ?_
  refine State.phaseSteps_trans
    (State.phaseSteps_hold (nx := .lowerClock) hb (fun t ht => by rw [State.phaseStep, ht]; rfl) rfl hc hn) ?_
  exact State.phaseSteps_one hb

/-! ### One byte as phase steps -/

theorem bitIdx_pred : ∀ k : Fin 7, (⟨k.val + 1, by omega⟩ - 1 : Fin 8) = ⟨k.val, by omega⟩ := by decide

/-- After a bit that is not the last of its byte the block stands at the next lower bit (R43). -/
theorem State.endBit_succ (x : Fin 32) (j : Fin 4) (k : Fin 7) (t : State) :
    (t.standAt x j ⟨k.val + 1, by omega⟩).endBit = t.standAt x j ⟨k.val, by omega⟩ := by
  rw [State.endBit, if_pos (by simp [State.standAt])]
  simp only [State.standAt, bitIdx_pred]

/-- After bit 0 the byte ends (R43). -/
theorem State.endBit_zero (x : Fin 32) (j : Fin 4) (t : State) :
    (t.standAt x j 0).endBit = (t.standAt x j 7).endByte := rfl

/-- After command bytes 0 to 2 the block stands at the next byte (R44). -/
theorem State.endByte_of_lt (x : Fin 32) {j : Fin 4} (hj : j.val < 3) (t : State) :
    (t.standAt x j 7).endByte = (t.putResp j t.rsr).standAt x (j + 1) 7 := by
  match j, hj with
  | 0, _ => rfl
  | 1, _ => rfl
  | 2, _ => rfl

/-- After command byte 3 the transaction ends (R44). -/
theorem State.endByte_three (x : Fin 32) (t : State) :
    (t.standAt x 3 7).endByte = ((t.putResp 3 t.rsr).standAt x 0 7).endTransaction := rfl

/-- The bits `k` down to 0 of the command byte in progress as phase steps. -/
theorem State.phaseSteps_bits (x : Fin 32) (j : Fin 4) : ∀ (k : Nat) (hk : k < 8) {s : State}, s.busy = true →
    1 ≤ s.params.settleCycles →
    State.phaseSteps ((k + 1) * (4 + 2 * s.params.settleCycles)) (s.standAt x j ⟨k, hk⟩)
      = ((State.transferBits (s.standAt x j 0).commandByte (k + 1) s).standAt x j 0).endBit
  | 0, _, _, hb, hc => by
    rw [Nat.zero_add, Nat.one_mul]
    exact State.phaseSteps_bit x j 0 hb hc
  | k + 1, hk, s, hb, hc => by
    rw [Nat.add_mul, Nat.one_mul, Nat.add_comm, State.phaseSteps_add, State.phaseSteps_bit x j _ hb hc,
      State.endBit_succ x j ⟨k, by omega⟩]
    exact State.phaseSteps_bits x j k (by omega)
      (s := s.transferBit ((s.standAt x j ⟨k + 1, hk⟩).commandByte.getLsbD (k + 1))) hb hc

/-- A whole command byte as phase steps is `transferByte` of it (R43). -/
theorem State.phaseSteps_byte (x : Fin 32) (j : Fin 4) {s : State} (hb : s.busy = true)
    (hc : 1 ≤ s.params.settleCycles) :
    State.phaseSteps (8 * (4 + 2 * s.params.settleCycles)) (s.standAt x j 7)
      = ((s.transferByte (s.standAt x j 0).commandByte).standAt x j 7).endByte :=
  (State.phaseSteps_bits x j 7 (by omega) hb hc).trans (State.endBit_zero x j _)

end Sys2Proof.Machine
end

