-- ==== Sys2Proof/Laws/Run.lean ====
section
/-! SUPPORT. What the operations around `exec` can do, once each: every instruction answers a next state, what a frame
decodes to, the cases of `Data`, of a dispatch and of a step. -/

namespace Sys2Proof.Machine

/-! ### Sequencing outcomes -/

@[simp] theorem andThen_next (s : State) (f : State → Out) : andThen (.next s) f = f s := rfl

/-- A next state of a sequence comes from a next state of its first part. -/
theorem andThen_eq_next {o : Out} {f : State → Out} {t : State} :
    andThen o f = .next t ↔ ∃ s, o = .next s ∧ f s = .next t := by
  cases o with
  | next s => simp
  | fault r => simp [andThen]
  | refused r => simp [andThen]

/-! ### The instructions -/

/-- No instruction stops (R72). -/
theorem exec_next (i : Instr) (s : State) : ∃ t, exec i s = .next t := by
  cases i <;> exact ⟨_, rfl⟩

/-- What an instruction does is one of these (R60 to R63, R67, R44). -/
theorem exec_cases {i : Instr} {s t : State} (h : exec i s = .next t) :
    (∃ a, t = s.setReset a ∧ transactionCount i = 0)
    ∨ (∃ cs, t = s.issueAll cs ∧ cs.length = transactionCount i)
    ∨ (t = s ∧ transactionCount i = 0)
    ∨ (i = .statusRead ∧ t = s.answer s.statusReport)
    ∨ (∃ c, i = .ispTransaction c ∧ t = s.issueCommand c) := by
  cases i with
  | resetDeviceS r q f x1 x2 x3 => exact .inl ⟨_, (Host.Outcome.next.inj h).symm, rfl⟩
  | resetDeviceB r q f body => exact .inl ⟨_, (Host.Outcome.next.inj h).symm, rfl⟩
  | ispCommandS r q c => exact .inr (.inl ⟨[c], (Host.Outcome.next.inj h).symm, rfl⟩)
  | ispCommandB r q n body =>
    exact .inr (.inl ⟨_, (Host.Outcome.next.inj h).symm, by simp [batchTransactions, transactionCount]⟩)
  | unknownS r q o x0 x1 x2 x3 => exact .inr (.inr (.inl ⟨(Host.Outcome.next.inj h).symm, rfl⟩))
  | unknownB r q o x body => exact .inr (.inr (.inl ⟨(Host.Outcome.next.inj h).symm, rfl⟩))
  | statusRead => exact .inr (.inr (.inr (.inl ⟨rfl, (Host.Outcome.next.inj h).symm⟩)))
  | ispTransaction c => exact .inr (.inr (.inr (.inr ⟨c, rfl, (Host.Outcome.next.inj h).symm⟩)))

/-- What a sequence of transactions leaves alone: everything but two lines, the shift register, the response, the
reply, the trace (which only grows) and the target's levels (R65). -/
theorem State.issueAll_frame (cs : List Quad) (s : State) :
    ∃ (a b : Level) (r : Byte) (q p : Quad) (es : List LineEvent) (ls : List Level) (d : Nat),
      s.issueAll cs = { s with
        lineDataOut := a, lineClock := b, rsr := r, resp := q, reply := p, trace := es ++ s.trace,
        targetIn := ls, draws := d } :=
  match cs with
  | [] => ⟨_, _, _, _, _, [], _, _, rfl⟩
  | c :: cs => ⟨_, _, _, _, _, _, _, _, State.issueAll_cons c cs s⟩

/-- What an instruction leaves alone: the parameters, the receive buffer and its registers, the sequencing state, the
inputs of the host, the stepping mode; the trace only grows (R65). -/
theorem exec_frame {i : Instr} {s t : State} (h : exec i s = .next t) :
    ∃ (a b e : Level) (r : Byte) (q p : Quad) (es : List LineEvent) (ls : List Level) (d : Nat)
      (as : List (List Byte)),
      t = { s with
        lineDataOut := a, lineClock := b, lineReset := e, rsr := r, resp := q, reply := p, trace := es ++ s.trace,
        targetIn := ls, draws := d, answers := as } := by
  rcases exec_cases h with ⟨a, rfl, -⟩ | ⟨cs, rfl, -⟩ | ⟨rfl, -⟩ | ⟨-, rfl⟩ | ⟨c, -, rfl⟩
  · exact ⟨_, _, !a, _, _, _, [.reset (!a)], _, _, _, by cases a <;> rfl⟩
  · obtain ⟨a, b, r, q, p, es, ls, d, h⟩ := State.issueAll_frame cs s
    exact ⟨a, b, _, r, q, p, es, ls, d, _, h⟩
  · exact ⟨_, _, _, _, _, _, [], _, _, _, rfl⟩
  · exact ⟨_, _, _, _, _, _, [], _, _, _, rfl⟩
  · exact ⟨_, _, _, _, _, _, _, _, _, _, State.issueCommand_eq c s⟩

/-! ### The transaction a dispatch stands at -/

/-- The four command bytes of the transaction in progress as the operand of ISP_TRANSACTION. -/
def State.transactionQuad (s : State) : Quad :=
  ⟨s.rxbuf.load (s.transactionBase s.txnIdx), s.rxbuf.load (s.transactionBase s.txnIdx + 1),
    s.rxbuf.load (s.transactionBase s.txnIdx + 2), s.rxbuf.load (s.transactionBase s.txnIdx + 3)⟩

theorem decode_transactionBytes (s : State) :
    decode s.params .serial s.transactionBytes = .ok (.ispTransaction s.transactionQuad, []) := rfl

theorem runTransaction_eq (s : State) :
    runTransaction s = .next (s.issueCommand s.transactionQuad).endTransaction := by
  rw [runTransaction, decode_transactionBytes]
  rfl

/-! ### A complete frame -/

theorem State.frameBytes_single {s : State} (h : s.receiveSize = rxSizeSingle) :
    s.frameBytes = [s.rxbuf.load 0, s.rxbuf.load 1, s.rxbuf.load 2, s.rxbuf.load 3, s.rxbuf.load 4, s.rxbuf.load 5,
      s.rxbuf.load 6] := by
  rw [State.frameBytes, h]; rfl

/-- The bytes of a batch frame after payload byte 0. -/
def State.frameBody (s : State) : List Byte := (List.range batchBodyLen).map fun k => s.rxbuf.load (4 + k)

theorem State.frameBytes_batch {s : State} (h : s.receiveSize = rxSizeBatch) :
    s.frameBytes = s.rxbuf.load 0 :: s.rxbuf.load 1 :: s.rxbuf.load 2 :: s.rxbuf.load 3 :: s.frameBody := by
  rw [State.frameBytes, h, State.frameBody, show rxSizeBatch = 4 + batchBodyLen from rfl, List.range_add]
  simp [List.range_succ, Function.comp_def]

theorem State.frameFormat_single {s : State} (h : s.receiveSize = rxSizeSingle) : s.frameFormat = some .single :=
  if_pos h

theorem State.frameFormat_batch {s : State} (h : s.receiveSize = rxSizeBatch) : s.frameFormat = some .batch := by
  rw [State.frameFormat, if_neg (by rw [h]; decide), if_pos h]

theorem State.frameFormat_cases {s : State} {f : Format} (h : s.frameFormat = some f) :
    (f = .single ∧ s.receiveSize = rxSizeSingle) ∨ (f = .batch ∧ s.receiveSize = rxSizeBatch) := by
  unfold State.frameFormat at h
  split at h
  · exact .inl ⟨(Option.some.inj h).symm, ‹_›⟩
  · split at h
    · exact .inr ⟨(Option.some.inj h).symm, ‹_›⟩
    · cases h

/-- The operation a complete frame selects (R37, R59). -/
def State.frameInstr (s : State) : Instr :=
  if s.receiveSize = rxSizeSingle then
    decodeSingle s.params (s.rxbuf.load 0) (s.rxbuf.load 1) (s.rxbuf.load 2) (s.rxbuf.load 3) (s.rxbuf.load 4)
      (s.rxbuf.load 5) (s.rxbuf.load 6)
  else decodeBatch s.params (s.rxbuf.load 0) (s.rxbuf.load 1) (s.rxbuf.load 2) (s.rxbuf.load 3) s.frameBody

/-- A complete frame decodes, with no byte left over. -/
theorem decode_frameBytes {s : State} {f : Format} (h : s.frameFormat = some f) :
    decode s.params f s.frameBytes = .ok (s.frameInstr, []) := by
  rcases State.frameFormat_cases h with ⟨rfl, hs⟩ | ⟨rfl, hs⟩
  · rw [State.frameBytes_single hs, State.frameInstr, if_pos hs]; rfl
  · have hl : s.frameBody.length = batchBodyLen := by simp [State.frameBody]
    have ht : s.frameBody.take batchBodyLen = s.frameBody := by rw [← hl, List.take_length]
    have hd : s.frameBody.drop batchBodyLen = [] := by rw [← hl, List.drop_length]
    rw [State.frameBytes_batch hs, State.frameInstr, if_neg (by rw [hs]; decide)]
    simp only [decode, if_pos hl.ge, ht, hd]

/-- A dispatch with a next state is that of the frame's instruction. -/
theorem dispatchFrame_eq {s : State} {f : Format} (h : s.frameFormat = some f) :
    dispatchFrame s = dispatchInstr s.frameInstr s := by
  rw [dispatchFrame, h]
  simp only [decode_frameBytes h]

theorem dispatchFrame_cases {s t : State} (h : dispatchFrame s = .next t) :
    ∃ f, s.frameFormat = some f ∧ dispatchInstr s.frameInstr s = .next t := by
  match hf : s.frameFormat with
  | none => rw [dispatchFrame, hf] at h; cases h
  | some f => exact ⟨f, rfl, dispatchFrame_eq hf ▸ h⟩

/-- A dispatch begins phase by phase, or runs whole. -/
theorem dispatchInstr_cases {i : Instr} {s t : State} (h : dispatchInstr i s = .next t) :
    (s.phased = true ∧ 0 < transactionCount i ∧ t = s.beginDispatch)
    ∨ ∃ u, exec i (s.setBusy true) = .next u ∧ t = u.setBusy false := by
  unfold dispatchInstr at h
  split at h
  · rename_i hc
    simp only [Bool.and_eq_true, decide_eq_true_eq] at hc
    exact .inl ⟨hc.1, hc.2, (Host.Outcome.next.inj h).symm⟩
  · obtain ⟨u, hu, ht⟩ := andThen_eq_next.mp h
    exact .inr ⟨u, hu, (Host.Outcome.next.inj ht).symm⟩

theorem dispatchInstr_next (i : Instr) (s : State) : ∃ t, dispatchInstr i s = .next t := by
  unfold dispatchInstr
  split
  · exact ⟨_, rfl⟩
  · obtain ⟨u, hu⟩ := exec_next i (s.setBusy true)
    exact ⟨u.setBusy false, by rw [dispatchWhole, hu]; rfl⟩

/-! ### `Data` -/

/-- The clamp (R53). -/
theorem State.acceptCount_le (s : State) (bs : List Byte) :
    s.acceptCount bs ≤ bs.length ∧ s.acceptCount bs ≤ s.receiveSize - s.receiveOffset :=
  ⟨Nat.min_le_left _ _, Nat.min_le_right _ _⟩

theorem takeData_of_none {bs : List Byte} {s : State} (h : s.acceptCount bs = 0) : takeData bs s = .next s := by
  rw [takeData, if_neg (by omega)]

theorem takeData_of_part {bs : List Byte} {s : State} (h0 : 0 < s.acceptCount bs)
    (h1 : s.receiveOffset + s.acceptCount bs ≤ rxbufLen) (h2 : s.receiveOffset + s.acceptCount bs ≠ s.receiveSize) :
    takeData bs s = .next (s.append (bs.take (s.acceptCount bs))) := by
  rw [takeData, if_pos h0, if_pos h1, if_neg h2]

theorem takeData_of_complete {bs : List Byte} {s : State} (h0 : 0 < s.acceptCount bs)
    (h1 : s.receiveOffset + s.acceptCount bs ≤ rxbufLen) (h2 : s.receiveOffset + s.acceptCount bs = s.receiveSize) :
    takeData bs s = dispatchFrame (s.append (bs.take (s.acceptCount bs))) := by
  rw [takeData, if_pos h0, if_pos h1, if_pos h2]

/-- What a chunk can do (R53 to R55). -/
theorem takeData_cases {bs : List Byte} {s t : State} (h : takeData bs s = .next t) :
    (s.acceptCount bs = 0 ∧ t = s)
    ∨ (0 < s.acceptCount bs ∧ s.receiveOffset + s.acceptCount bs ≤ rxbufLen
        ∧ s.receiveOffset + s.acceptCount bs ≠ s.receiveSize ∧ t = s.append (bs.take (s.acceptCount bs)))
    ∨ (0 < s.acceptCount bs ∧ s.receiveOffset + s.acceptCount bs ≤ rxbufLen
        ∧ s.receiveOffset + s.acceptCount bs = s.receiveSize
        ∧ dispatchFrame (s.append (bs.take (s.acceptCount bs))) = .next t) := by
  unfold takeData at h
  split at h
  · split at h
    · split at h
      · exact .inr (.inr ⟨‹_›, ‹_›, ‹_›, h⟩)
      · exact .inr (.inl ⟨‹_›, ‹_›, ‹_›, (Host.Outcome.next.inj h).symm⟩)
    · cases h
  · exact .inl ⟨by omega, (Host.Outcome.next.inj h).symm⟩

/-! ### Reads and steps -/

theorem takeRead_status (s : State) : takeRead reportStatusId s = .next (s.answer s.statusReport) := rfl

theorem takeRead_other {id : Byte} (h : id ≠ reportStatusId) (s : State) : takeRead id s = .next (s.answer []) := by
  simp [takeRead, decode, h, emptyRead]

/-- A read only adds an answer. -/
theorem takeRead_cases (id : Byte) (s : State) : ∃ a, takeRead id s = .next (s.answer a) := by
  by_cases h : id = reportStatusId
  · exact ⟨_, h ▸ takeRead_status s⟩
  · exact ⟨_, takeRead_other h s⟩

/-- What a dispatch in progress does in one step: a whole transaction, or one phase; it never stops. -/
theorem continueDispatch_cases (s : State) :
    (s.phased = false ∧ s.atTransactionStart = true
        ∧ continueDispatch s = .next (s.issueCommand s.transactionQuad).endTransaction)
    ∨ continueDispatch s = .next s.phaseStep := by
  unfold continueDispatch
  split
  · rename_i h
    simp only [Bool.and_eq_true, Bool.not_eq_true'] at h
    exact .inl ⟨h.1, h.2, runTransaction_eq s⟩
  · exact .inr rfl

theorem step_of_rst {s : State} (h : s.rst = true) : step s = .next s.hardReset := by
  simp only [step, stepOnce, if_pos h]

theorem step_of_busy {s : State} (hr : s.rst = false) (hb : s.busy = true) : step s = continueDispatch s := by
  simp only [step, stepOnce, hr, hb]
  rfl

theorem step_of_idle {s : State} (hr : s.rst = false) (hb : s.busy = false) (hq : s.hostQueue = []) :
    step s = .next s := by
  unfold step stepOnce
  rw [if_neg (by rw [hr]; decide), if_neg (by rw [hb]; decide)]
  split
  · rfl
  · rename_i h; rw [hq] at h; cases h

theorem step_of_event {s : State} {e : HostEvent} {es : List HostEvent} (hr : s.rst = false) (hb : s.busy = false)
    (hq : s.hostQueue = e :: es) : step s = takeEvent e { s with hostQueue := es } := by
  unfold step stepOnce
  rw [if_neg (by rw [hr]; decide), if_neg (by rw [hb]; decide)]
  split
  · rename_i h; rw [hq] at h; cases h
  · rename_i h; rw [hq] at h; cases h; rfl

/-- What a step can do (R25, R51, R64, R81). -/
theorem step_cases {s t : State} (h : step s = .next t) :
    (s.rst = true ∧ t = s.hardReset)
    ∨ (s.rst = false ∧ s.busy = true ∧ continueDispatch s = .next t)
    ∨ (s.rst = false ∧ s.busy = false ∧ s.hostQueue = [] ∧ t = s)
    ∨ (s.rst = false ∧ s.busy = false
        ∧ ∃ e es, s.hostQueue = e :: es ∧ takeEvent e { s with hostQueue := es } = .next t) := by
  unfold step stepOnce at h
  split at h
  · exact .inl ⟨‹_›, (Host.Outcome.next.inj h).symm⟩
  · rename_i hr
    have hr := Bool.eq_false_iff.mpr hr
    split at h
    · exact .inr (.inl ⟨hr, ‹_›, h⟩)
    · rename_i hb
      have hb := Bool.eq_false_iff.mpr hb
      match hq : s.hostQueue, h with
      | [], h => exact .inr (.inr (.inl ⟨hr, hb, rfl, (Host.Outcome.next.inj h).symm⟩))
      | e :: es, h => exact .inr (.inr (.inr ⟨hr, hb, e, es, rfl, h⟩))

end Sys2Proof.Machine
end

