-- ==== Sys2Proof/Tests/Slice0.lean ====
section
/-! SUPPORT. Tests on fixed values, their expected results from spec/95_test_vectors.md (the vector is named at each)
or worked out by hand from the rule named; and for every obligation with hypotheses a witness that meets them. -/

namespace Sys2Proof.Tests

open Sys2Proof.Machine

/-! ### Helpers -/

/-- The default parameters of R3 with a hold of 10000 ns at 200 kHz, that is two settle cycles, and chunks of 8 bytes. -/
def params : Params := ⟨0x01, 0x02, 4, 1, 2, 3, 0x01, 0x00, 10000, 200000, 8⟩

/-- The reset state with these parameters. -/
def ready : State := { State.reset with params := params }

/-- What `f` shows of a next state. -/
def look {α : Type} (f : State → α) : Out → Option α
  | .next s => some (f s)
  | .fault _ => none
  | .refused _ => none

/-- The bits of a byte, bit 7 first (R21). -/
def bitsOf (b : Byte) : List Level := [7, 6, 5, 4, 3, 2, 1, 0].map fun k => b.getLsbD k

/-- The target answers these bytes. -/
def State.answering (bs : List Byte) (s : State) : State := { s with targetIn := (bs.map bitsOf).flatten }

/-- A state whose buffer holds the bytes of a complete frame of that length. -/
def State.holding (bs : List Byte) (s : State) : State :=
  { s with rxbuf := Memory.storeAll [] 0 bs, receiveOffset := bs.length, receiveSize := bs.length }

/-- The bytes `lo`, `lo + 1`, ..., `n` of them. -/
def rising (lo n : Nat) : List Byte := (List.range n).map fun k => BitVec.ofNat 8 (lo + k)

/-- The body of the batch frames of V6.11 to V6.18: slot bytes 01 to 7C, padding EE. -/
def batchBody : List Byte := rising 1 124 ++ List.replicate 5 0xEE

/-! ### WellFormed and the parameters: a term refused by each check -/

theorem test_wf_unknownS_refuses_reset_opcode : Instr.wf params (.unknownS 2 0 0x01 0 0 0 0) = false := by decide
theorem test_wf_unknownS_refuses_isp_opcode : Instr.wf params (.unknownS 2 0 0x02 0 0 0 0) = false := by decide
theorem test_wf_unknownS_accepts : Instr.wf params (.unknownS 2 0 0x03 0 0 0 0) = true := by decide
theorem test_wf_unknownB_refuses_isp_opcode :
    Instr.wf params (.unknownB 3 0 0x02 0 (List.replicate 129 0)) = false := by decide +kernel
theorem test_wf_unknownB_refuses_short_body :
    Instr.wf params (.unknownB 3 0 0x7F 0 (List.replicate 128 0)) = false := by decide +kernel
theorem test_wf_resetDeviceB_refuses_short_body :
    Instr.wf params (.resetDeviceB 3 0 1 (List.replicate 128 0)) = false := by decide +kernel
theorem test_wf_ispCommandB_refuses_long_body :
    Instr.wf params (.ispCommandB 3 0 1 (List.replicate 130 0)) = false := by decide +kernel

/-- One value outside each constraint of R3. -/
theorem test_params_wf_refuses :
    Params.wf { params with opcResetDevice := 0x02 } = false
    ∧ Params.wf { params with batchBase := 3 } = false ∧ Params.wf { params with batchBase := 10 } = false
    ∧ Params.wf { params with r1StatusOff := 0 } = false ∧ Params.wf { params with r1SeqOff := 7 } = false
    ∧ Params.wf { params with r1ReplyOff := 4 } = false ∧ Params.wf { params with r1SeqOff := 1 } = false
    ∧ Params.wf { params with r1StatusOff := 4 } = false ∧ Params.wf { params with r1SeqOff := 6 } = false
    ∧ Params.wf { params with statusAsserted := 0x00 } = false ∧ Params.wf { params with tSettleNs := 0 } = false
    ∧ Params.wf { params with maxChunk := 0 } = false := by
  decide

theorem params_wf : params.wf = true := by decide

/-- R3: ceil(10000 ns × 200 kHz) = 2; a product that is no whole number of cycles is rounded up. -/
theorem test_settleCycles : params.settleCycles = 2
    ∧ Params.settleCycles { params with tSettleNs := 10001 } = 3 := by decide

/-! ### Decoding: words written out from the layouts of R30 to R33 -/

-- RESET_DEVICE.S (R30): report id 02, sequence 10, opcode 01, flag 01 (V6.1).
theorem test_decode_resetDeviceS :
    decodeTableWord 56 0x02100101000000 = some (.resetDeviceS 0x02 0x10 0x01 0x00 0x00 0x00) := by decide
-- ISP_COMMAND.S (R30): bytes in ascending order, AC first (V6.3).
theorem test_decode_ispCommandS :
    decodeTableWord 56 0x021202AC530000 = some (.ispCommandS 0x02 0x12 ⟨0xAC, 0x53, 0x00, 0x00⟩) := by decide
-- UNKNOWN.S (R63): opcode 7F (V6.6).
theorem test_decode_unknownS :
    decodeTableWord 56 0x02157F01020304 = some (.unknownS 0x02 0x15 0x7F 0x01 0x02 0x03 0x04) := by decide
-- The report id byte selects nothing (R38): FF in place of 02.
theorem test_decode_ignores_report_id_byte :
    decodeTableWord 56 0xFF100101000000 = some (.resetDeviceS 0xFF 0x10 0x01 0x00 0x00 0x00) := by decide
-- RESET_DEVICE.B (R31): 03 18 01 80, then 129 bytes of 00 (V6.9).
theorem test_decode_resetDeviceB :
    decodeTableWord 32 0x03180180 = some (.resetDeviceB 0x03 0x18 0x80 (List.replicate 129 0x00)) := by
  decide +kernel
-- ISP_COMMAND.B (R31): 03 01 02 E2 (V6.15); frame offset 4 stands in bits 39:32.
theorem test_decode_ispCommandB :
    decodeTableWord 1064 0x11030102E2 = some (.ispCommandB 0x03 0x01 0xE2 (0x11 :: List.replicate 128 0x00)) := by
  decide +kernel
-- UNKNOWN.B (R63): 03 19 7F, then 130 bytes of 00 (V6.10).
theorem test_decode_unknownB :
    decodeTableWord 1064 0x03197F00 = some (.unknownB 0x03 0x19 0x7F 0x00 (List.replicate 129 0x00)) := by
  decide +kernel
-- STATUS_READ (R32): the seven bytes of V7.2.
theorem test_decode_statusRead : decodeTableWord 56 0x01012A00AC5300 = some .statusRead := by decide
-- ISP_TRANSACTION (R33): command byte 0 first.
theorem test_decode_ispTransaction :
    decodeTableWord 32 0x12345678 = some (.ispTransaction ⟨0x12, 0x34, 0x56, 0x78⟩) := by decide
-- A frame cut short is refused by name (R39), and so is a read of report 2 (R69).
theorem test_decode_refuses : decode params .single [2, 9, 2, 1, 2, 3] = .error (.tooShort .single)
    ∧ decode params .batch (List.replicate 132 3) = .error (.tooShort .batch)
    ∧ decode params .serial [1, 2, 3] = .error (.tooShort .serial)
    ∧ decode params .status [] = .error (.tooShort .status)
    ∧ decode params .status [2] = .error (.noSuchReport 2) := by
  decide +kernel
-- Bytes after the frame are left over.
theorem test_decode_leaves_the_rest :
    decode params .single [2, 9, 2, 1, 2, 3, 4, 0x99] = .ok (.ispCommandS 2 9 ⟨1, 2, 3, 4⟩, [0x99]) := by decide
-- The frame of V6.1, and the head of V6.9.
theorem test_encode : encode params (.resetDeviceS 0x02 0x10 0x01 0 0 0) = [0x02, 0x10, 0x01, 0x01, 0x00, 0x00, 0x00]
    ∧ (encode params (.resetDeviceB 0x03 0x18 0x80 (List.replicate 129 0))).take 5 = [0x03, 0x18, 0x01, 0x80, 0x00]
    ∧ encode params .statusRead = [0x01] ∧ encode params (.ispTransaction ⟨1, 2, 3, 4⟩) = [1, 2, 3, 4] := by
  decide +kernel

/-! ### The signal driver -/

-- V1.4: bit 7 is discarded. V1.5: the example of R42.
theorem test_transferBit_V1_4 :
    (State.transferBit true { ready with rsr := 0x80, targetIn := [false] }).rsr = 0x00 := by decide
theorem test_transferBit_V1_5 :
    (State.transferBit true { ready with rsr := 0xB2, targetIn := [true] }).rsr = 0x65
    ∧ (State.transferBit true { ready with rsr := 0xB2, targetIn := [true] }).lineEvents
      = [.dataOut true, .settle, .clock true, .sample true, .settle, .clock false] := by decide
-- V2.1 and V2.2: the result does not depend on rsr before.
theorem test_transferByte_V2_1 :
    (State.transferByte 0xA5
      { ready with targetIn := [false, true, false, true, false, false, true, true] }).rsr = 0x53 := by
  decide +kernel
theorem test_transferByte_V2_2 :
    (State.transferByte 0xA5
      { ready with rsr := 0xFF, targetIn := [false, true, false, true, false, false, true, true] }).rsr = 0x53 := by
  decide +kernel
-- V4.2: no pulse. V4.3: release.
theorem test_setReset_V4 : (State.setReset true { ready with lineReset := false }).lineEvents = [.reset false]
    ∧ (State.setReset false { ready with lineReset := false }).lineReset = true := by decide
-- V3.3: an alternating target answers AA four times; DATA_OUT ends 0.
theorem test_ispTransaction_V3_3 :
    look (fun t => (t.resp, t.rsr, t.lineDataOut, t.lineClock))
      (exec (.ispTransaction ⟨0x12, 0x34, 0x56, 0x78⟩)
        { ready with targetIn := ((List.replicate 16 [true, false]).flatten) })
      = some (⟨0xAA, 0xAA, 0xAA, 0xAA⟩, 0xAA, false, false) := by
  decide +kernel
-- V3.6: delayed echo; the reply buffer is not written (R44); 192 events.
theorem test_ispTransaction_V3_6 :
    look (fun t => (t.resp, t.reply, t.lineEvents.length))
      (exec (.ispTransaction ⟨0x30, 0x00, 0x01, 0x00⟩) (State.answering [0x00, 0x30, 0x00, 0x01] ready))
      = some (⟨0x00, 0x30, 0x00, 0x01⟩, Quad.zero, 192) := by
  decide +kernel

/-! ### The commands -/

-- V6.1 and V6.4: any nonzero flag asserts.
theorem test_resetDeviceS_V6_1 :
    look (fun t => (t.lineReset, t.lineEvents, t.reply)) (exec (.resetDeviceS 0x02 0x10 0x01 0 0 0) ready)
      = some (false, [.reset false], Quad.zero) := by decide
-- V6.5: the flag is payload byte 0 only.
theorem test_resetDeviceS_V6_5 :
    look State.lineReset (exec (.resetDeviceS 0x02 0x14 0x00 0xFF 0xFF 0xFF) { ready with lineReset := false })
      = some true := by decide
-- V6.9: the same in a batch frame; no clock cycle.
theorem test_resetDeviceB_V6_9 :
    look (fun t => (t.lineReset, t.lineEvents)) (exec (.resetDeviceB 0x03 0x18 0x80 (List.replicate 129 0)) ready)
      = some (false, [.reset false]) := by decide +kernel
-- V6.3: sent while the target is held; delayed echo.
theorem test_ispCommandS_V6_3 :
    look (fun t => (t.reply, t.lineReset, t.lineEvents.length))
      (exec (.ispCommandS 0x02 0x12 ⟨0xAC, 0x53, 0x00, 0x00⟩)
        (State.answering [0x00, 0xAC, 0x53, 0x00] { ready with lineReset := false }))
      = some (⟨0x00, 0xAC, 0x53, 0x00⟩, false, 192) := by
  decide +kernel
-- V6.8: an all-zero command is still sent; target high.
theorem test_ispCommandS_V6_8 :
    look State.reply (exec (.ispCommandS 0x02 0x17 Quad.zero)
      { ready with reply := ⟨0xF0, 0, 0, 0⟩, targetIn := List.replicate 32 true }) = some ⟨0xFF, 0xFF, 0xFF, 0xFF⟩ := by
  decide +kernel
-- V6.15: bits 7:5 of the count byte are ignored; two transactions, loopback; the last reply survives.
theorem test_ispCommandB_V6_15 :
    look (fun t => (t.reply, risingEdges t.lineEvents))
      (exec (.ispCommandB 0x03 0x01 0xE2 batchBody) (State.answering (rising 1 8) ready))
      = some (⟨0x05, 0x06, 0x07, 0x08⟩, 64) := by
  decide +kernel
-- V6.16: count byte 20 is count 0: nothing is clocked.
theorem test_ispCommandB_V6_16 :
    look (fun t => (t.reply, t.lineEvents)) (exec (.ispCommandB 0x03 0x01 0x20 batchBody) ready)
      = some (Quad.zero, []) := by
  decide +kernel
-- V6.14: the slots of the last transaction are frame offsets 124 to 127, the padding is never sent (R35).
theorem test_batchSlots_V6_14 : (batchTransactions params 0x1F batchBody).length = 31
    ∧ (batchTransactions params 0x1F batchBody).getLast? = some ⟨0x79, 0x7A, 0x7B, 0x7C⟩ := by
  decide +kernel
-- V6.6: an unknown opcode leaves the reply.
theorem test_unknownS_V6_6 :
    look (fun t => (t.reply, t.lineEvents)) (exec (.unknownS 0x02 0x15 0x7F 1 2 3 4) { ready with reply := ⟨0xF0, 0, 0, 0⟩ })
      = some (⟨0xF0, 0, 0, 0⟩, []) := by decide
-- V6.10: the same in a batch frame.
theorem test_unknownB_V6_10 :
    look (fun t => (t.reply, t.lineEvents)) (exec (.unknownB 0x03 0x19 0x7F 0 batchBody) ready)
      = some (Quad.zero, []) := by decide +kernel
-- V7.1 and V7.2.
theorem test_statusRead_V7_1 :
    look State.answers (exec .statusRead ready) = some [[0x01, 0x00, 0x00, 0x00, 0x00, 0x00, 0x00]] := by decide
theorem test_statusRead_V7_2 :
    look State.answers (exec .statusRead
      { ready with lineReset := false, rxbuf := [(1, 0x2A)], reply := ⟨0x00, 0xAC, 0x53, 0x00⟩ })
      = some [[0x01, 0x01, 0x2A, 0x00, 0xAC, 0x53, 0x00]] := by decide

/-! ### The accumulator and the step -/

-- V5.4: the eighth byte is dropped by the clamp.
theorem test_data_V5_4 :
    look (fun t => (t.rxbuf, t.receiveOffset, t.lineEvents.length))
      (takeEvents [.startWrite 2, .data [0x02, 0x09, 0x02, 0x01, 0x02, 0x03, 0x04, 0x99]]
        (State.answering [1, 2, 3, 4] ready))
      = some ([(0, 0x02), (1, 0x09), (2, 0x02), (3, 0x01), (4, 0x02), (5, 0x03), (6, 0x04)], 7, 192) := by
  decide +kernel
-- V5.7: an undefined report id: everything is dropped.
theorem test_data_V5_7 :
    look (fun t => (t.receiveSize, t.receiveOffset, t.rxbuf))
      (takeEvents [.startWrite 5, .data [0x05, 0x09, 0x02, 0x01, 0x02, 0x03, 0x04]] ready)
      = some (0, 0, []) := by decide
-- V5.12: without a new command start the second write's bytes fill the old frame.
theorem test_data_V5_12 :
    look (fun t => (t.rxbuf.load 6, t.reply, t.answers))
      (takeEvents [.startWrite 2, .data [0x02, 0x40, 0x02], .data [0x02, 0x41, 0x02, 0xAA, 0xBB, 0xCC, 0xDD],
        .startRead 1] (State.answering [0x02, 0x41, 0x02, 0xAA] ready))
      = some (0xAA, ⟨0x02, 0x41, 0x02, 0xAA⟩, [[0x01, 0x00, 0x40, 0x02, 0x41, 0x02, 0xAA]]) := by
  decide +kernel
-- V7.5: a read of report 2 is answered empty.
theorem test_read_V7_5 : look State.answers (takeRead 0x02 ready) = some [[]] := by decide
-- The very next step after placing a word runs it (V6.1, V7.1).
theorem test_step_runs_placed_frame :
    look State.lineReset (step (State.reset.withFetchWord 56 0x02100101000000)) = some false := by decide +kernel
theorem test_step_runs_placed_read :
    look State.answers (step (State.reset.withFetchWord 56 0x01000000000000))
      = some [[0x01, 0x00, 0x00, 0x00, 0x00, 0x00, 0x00]] := by decide +kernel
-- R42 phases 1 and 4, R79: with two settle cycles a bit takes eight phase steps and ends the bit at its last.
theorem test_phases_of_one_bit :
    (State.phaseSteps 8 (State.beginDispatch (State.answering [0x80] (State.holding [2, 9, 2, 0xA5, 2, 3, 4] ready)))).lineEvents
      = [.dataOut true, .settle, .clock true, .sample true, .settle, .clock false] := by decide +kernel
-- R16: report byte 0 stands in bits 7:0 of h_rd_data (V7.2 bytes).
theorem test_ports_read_data :
    ({ ready with answers := [[0x01, 0x01, 0x2A, 0x00, 0xAC, 0x53, 0x00]] } : State).ports.hRdData
      = 0x0053AC002A0101 := by decide

/-! ### Witnesses: concrete states and operands that meet the hypotheses of each obligation -/

/-- The invariant, from its checks one by one on a concrete state. -/
theorem ready_inv : ready.Inv where
  params := by decide
  rxbuf := by decide
  size := by decide
  offset := by decide
  quiet := by decide
  idle := by decide
  frame := by decide
  clock := by decide
  wait := by decide

theorem ready_quiescent : ready.Quiescent := ⟨ready_inv, rfl, rfl⟩

/-- A single ISP_COMMAND frame complete in the buffer, not dispatched. -/
def fullSingle : State := State.answering [1, 2, 3, 4] (State.holding [2, 9, 2, 1, 2, 3, 4] ready)

/-- A batch of two complete in the buffer, not dispatched. -/
def fullBatch : State := State.holding ([3, 1, 2, 0xE2] ++ batchBody) ready

theorem fullSingle_inv : fullSingle.Inv where
  params := by decide
  rxbuf := by decide
  size := by decide
  offset := by decide
  quiet := by decide
  idle := by decide
  frame := by decide
  clock := by decide
  wait := by decide

theorem fullBatch_inv : fullBatch.Inv where
  params := by decide +kernel
  rxbuf := by decide +kernel
  size := by decide +kernel
  offset := by decide +kernel
  quiet := by decide +kernel
  idle := by decide +kernel
  frame := by decide +kernel
  clock := by decide +kernel
  wait := by decide +kernel

/-- Dispatches at the start of a transaction: the one of a single frame, and the second of two of a batch. -/
def busySingle : State := fullSingle.beginDispatch
def busyBatch : State := { fullBatch.beginDispatch with txnIdx := 1 }

theorem busySingle_inv : busySingle.Inv where
  params := by decide
  rxbuf := by decide
  size := by decide
  offset := by decide
  quiet := by decide
  idle := by decide
  frame := by decide
  clock := by decide
  wait := by decide

theorem busyBatch_inv : busyBatch.Inv where
  params := by decide +kernel
  rxbuf := by decide +kernel
  size := by decide +kernel
  offset := by decide +kernel
  quiet := by decide +kernel
  idle := by decide +kernel
  frame := by decide +kernel
  clock := by decide +kernel
  wait := by decide +kernel

/-- Phase by phase: about to drive DATA_OUT, and about to sample with the clock high in the middle of a byte. -/
def phasedDrive : State := { busySingle with phased := true, bitIdx := 0 }
def phasedSample : State :=
  { busySingle with phased := true, byteIdx := 2, bitIdx := 4, phase := .sample, lineClock := true }

/-- The last count of the second hold of the last bit of the second of two batched transactions. -/
def phasedLast : State :=
  { busyBatch with phased := true, byteIdx := 3, bitIdx := 0, phase := .settleHigh, waitCnt := 1, lineClock := true }

theorem phasedDrive_inv : phasedDrive.Inv where
  params := by decide
  rxbuf := by decide
  size := by decide
  offset := by decide
  quiet := by decide
  idle := by decide
  frame := by decide
  clock := by decide
  wait := by decide

theorem phasedSample_inv : phasedSample.Inv where
  params := by decide
  rxbuf := by decide
  size := by decide
  offset := by decide
  quiet := by decide
  idle := by decide
  frame := by decide
  clock := by decide
  wait := by decide

theorem phasedLast_inv : phasedLast.Inv where
  params := by decide +kernel
  rxbuf := by decide +kernel
  size := by decide +kernel
  offset := by decide +kernel
  quiet := by decide +kernel
  idle := by decide +kernel
  frame := by decide +kernel
  clock := by decide +kernel
  wait := by decide +kernel

/-- An instruction of every constructor, well formed. -/
def samples : List Instr :=
  [.resetDeviceS 2 0 1 0 0 0, .resetDeviceB 3 0 1 (List.replicate 129 0), .ispCommandS 2 0 ⟨0xAC, 0x53, 0, 0⟩,
    .ispCommandB 3 0 0x1F batchBody, .unknownS 2 0 0xFF 0 0 0 0, .unknownB 3 0 0x00 0 (List.replicate 129 0),
    .statusRead, .ispTransaction ⟨1, 2, 3, 4⟩]

theorem witness_DecodeOfEncodeIsTheInstruction :
    params.wf = true ∧ defaultParams.wf = true ∧ samples.all (Instr.wf params) = true :=
  ⟨by decide, defaultParams_wf, by decide +kernel⟩

theorem witness_EncodeOfDecodeIsTheBytes :
    decode params .single [2, 9, 1, 1, 2, 3, 4, 5] = .ok (.resetDeviceS 2 9 1 2 3 4, [5])
    ∧ decode params .batch ([3, 9, 2, 0] ++ List.replicate 129 7) = .ok (.ispCommandB 3 9 0 (List.replicate 129 7), [])
    ∧ decode params .status [1] = .ok (.statusRead, [])
    ∧ decode params .serial [1, 2, 3, 4] = .ok (.ispTransaction ⟨1, 2, 3, 4⟩, []) := by decide +kernel

theorem witness_DecodeRefusesOnlyShortBytesAndOtherReports :
    [2, 9, 1, 1, 2, 3].length < formatLength .single ∧ (List.replicate 132 0).length < formatLength .batch
    ∧ ([2] : List Byte).head? ≠ some 0x01 ∧ ¬ ([1] : List Byte).length < formatLength .status := by decide +kernel

theorem witness_OpcodeAndSizeSelectTheOperation :
    fullSingle.receiveSize = 7 ∧ fullBatch.receiveSize = 133 ∧ fullSingle.rxbuf.load 2 = fullSingle.params.opcIspCommand := by
  decide +kernel

/-- Bits 0 and 7 of command bytes 0 and 3: cycles 0 and 31. -/
theorem witness_CycleCarriesItsBit : (List.replicate 32 true).length = 32
    ∧ (traceOf ⟨0x80, 0, 0, 1⟩ (List.replicate 32 true))[0]? = some (.dataOut true)
    ∧ (traceOf ⟨0x80, 0, 0, 1⟩ (List.replicate 32 true))[189]? = some (.sample true) := by decide +kernel

/-- Counts 0 and 31, the ends of the range. -/
theorem witness_IspBatchKeepsTheLastReply : ready.params.wf = true ∧ (0x20 : Byte).toNat % 32 = 0
    ∧ (0xFF : Byte).toNat % 32 = 31 := by decide

theorem witness_StatusReadReportsTheState : ready.params.wf = true ∧ State.reset.params.wf = true :=
  ⟨by decide, defaultParams_wf⟩

theorem witness_ReadOfOtherReportsIsEmpty : (0x00 : Byte) ≠ 0x01 ∧ (0x02 : Byte) ≠ 0x01 := by decide

theorem witness_StatusReadIsRepeatable : ∃ t u, exec .statusRead ready = .next t ∧ exec .statusRead t = .next u :=
  ⟨_, _, rfl, rfl⟩

/-- Every constructor answers a next state, in a state that no run need reach too. -/
theorem witness_InstructionsLeaveTheAccumulator : ∀ i ∈ samples, ∃ t, exec i ready = .next t := fun i _ => exec_next i ready

theorem witness_OnlyIspCommandsChangeTheReply :
    ∃ t, exec (.ispCommandS 2 9 ⟨1, 2, 3, 4⟩) fullSingle = .next t ∧ t.reply ≠ fullSingle.reply :=
  ⟨_, rfl, by decide +kernel⟩

theorem witness_CostPerTransaction :
    (∃ t, exec (.ispCommandB 3 1 0xFF batchBody) ready = .next t) ∧ transactionCount (.ispCommandB 3 1 0xFF batchBody) = 31
    ∧ transactionCount (.ispCommandB 3 1 0x20 batchBody) = 0 := ⟨⟨_, rfl⟩, by decide, by decide⟩

/-- The three clauses: report ids 2, 3 and an undefined one. -/
theorem witness_StartWriteArmsTheAccumulator : ∀ id ∈ [(0x02 : Byte), 0x03, 0x04],
    let s : State := { ready with hostQueue := [.startWrite id] }
    s.rst = false ∧ s.busy = false ∧ s.hostQueue = .startWrite id :: [] := by decide

/-- Both clauses: a chunk that completes the frame with one byte dropped, and one that stores nothing. -/
theorem witness_DataAppendsWithClamp :
    fullSingle.Inv ∧ (ready.startWrite 0x02).acceptCount [2, 9, 2, 1, 2, 3, 4, 0x99] = 7
    ∧ (ready.startWrite 0x02).receiveOffset + 7 = (ready.startWrite 0x02).receiveSize
    ∧ fullSingle.acceptCount [1] = 0 ∧ (ready.startWrite 0x02).acceptCount [2, 9] = 2 :=
  ⟨fullSingle_inv, by decide, by decide, by decide, by decide⟩

theorem witness_DataAfterCompletionIsDropped : ready.receiveOffset = ready.receiveSize
    ∧ fullSingle.receiveOffset = fullSingle.receiveSize ∧ fullBatch.receiveOffset = fullBatch.receiveSize := by
  decide +kernel

theorem witness_ChunkingDoesNotMatter : ready.Quiescent
    ∧ [[2, 9, 2], ([] : List Byte), [1, 2, 3, 4]].flatten = [2, 9, 2, 1, 2, 3, 4] := ⟨ready_quiescent, by decide⟩

theorem witness_WholeReportRunsItsInstruction : ready.Quiescent
    ∧ ((0x02 : Byte) = 0x02 ∧ Format.single = .single ∧ ([2, 9, 2, 1, 2, 3, 4] : List Byte).length = 7)
    ∧ ((0x03 : Byte) = 0x03 ∧ Format.batch = .batch ∧ ([3, 1, 2, 0xE2] ++ batchBody).length = 133) :=
  ⟨ready_quiescent, by decide, by decide +kernel⟩

/-- A frame whose last byte waits. -/
def lastByteWaits : State :=
  { ready.startWrite 0x02 with
    rxbuf := Memory.storeAll [] 0 [2, 9, 1, 1, 0, 0], receiveOffset := 6, hostQueue := [.data [0x00, 0x99]] }

theorem witness_StepRunsTheDecodedFrame :
    let s := lastByteWaits
    let s1 := ({ s with hostQueue := [] } : State).append ([0x00, 0x99].take (s.acceptCount [0x00, 0x99]))
    s.rst = false ∧ s.busy = false ∧ s.hostQueue = .data [0x00, 0x99] :: []
    ∧ 0 < s.acceptCount [0x00, 0x99] ∧ s.receiveOffset + s.acceptCount [0x00, 0x99] = s.receiveSize
    ∧ s1.frameFormat = some .single
    ∧ decode s1.params .single s1.frameBytes = .ok (.resetDeviceS 2 9 1 0 0 0, []) := by decide +kernel

/-- The same of a batch frame that waits as one chunk, stepping by whole dispatches and phase by phase: both clauses. -/
theorem witness_StepRunsTheDecodedFrame_batch : ∀ ph ∈ [false, true],
    let bs := [3, 1, 2, 0xE2] ++ batchBody
    let s : State := { ready.startWrite 0x03 with hostQueue := [.data bs], phased := ph }
    let s1 := ({ s with hostQueue := [] } : State).append (bs.take (s.acceptCount bs))
    s.rst = false ∧ s.busy = false ∧ s.hostQueue = .data bs :: [] ∧ 0 < s.acceptCount bs
    ∧ s.receiveOffset + s.acceptCount bs = s.receiveSize ∧ s1.frameFormat = some .batch
    ∧ decode s1.params .batch s1.frameBytes = .ok (.ispCommandB 3 1 0xE2 batchBody, [])
    ∧ 0 < transactionCount (.ispCommandB 3 1 0xE2 batchBody) := by decide +kernel

theorem witness_StepRunsTheDecodedRead :
    let s : State := { ready with hostQueue := [.startRead 1] }
    s.rst = false ∧ s.busy = false ∧ s.hostQueue = .startRead 1 :: []
    ∧ decode s.params .status [1] = .ok (.statusRead, []) := by decide

theorem witness_StepRunsTheDecodedTransaction :
    (busySingle.rst = false ∧ busySingle.busy = true ∧ busySingle.phased = false
      ∧ busySingle.atTransactionStart = true
      ∧ decode busySingle.params .serial busySingle.transactionBytes = .ok (.ispTransaction ⟨1, 2, 3, 4⟩, []))
    ∧ (busyBatch.rst = false ∧ busyBatch.busy = true ∧ busyBatch.phased = false ∧ busyBatch.atTransactionStart = true
      ∧ decode busyBatch.params .serial busyBatch.transactionBytes = .ok (.ispTransaction ⟨5, 6, 7, 8⟩, [])) := by
  decide +kernel

theorem witness_IdleWithoutHostEvents : ready.rst = false ∧ ready.busy = false ∧ ready.hostQueue = [] := by decide

theorem witness_DeafDuringADispatch : busySingle.rst = false ∧ busySingle.busy = true
    ∧ phasedSample.rst = false ∧ phasedSample.busy = true := by decide

theorem witness_NoStepStops : ready.Inv ∧ busyBatch.Inv ∧ phasedLast.Inv :=
  ⟨ready_inv, busyBatch_inv, phasedLast_inv⟩

theorem witness_EveryStepKeepsTheInvariant : (busySingle.Inv ∧ ∃ t, step busySingle = .next t)
    ∧ (phasedLast.Inv ∧ ∃ t, step phasedLast = .next t) ∧ (ready.Inv ∧ ∃ t, step ready = .next t) :=
  ⟨⟨busySingle_inv, _, rfl⟩, ⟨phasedLast_inv, _, rfl⟩, ⟨ready_inv, _, rfl⟩⟩

/-- Both clauses: a hardware reset that releases a held target, and the completion of a RESET_DEVICE frame. -/
theorem witness_OnlyResetDeviceMovesTheResetLine :
    look State.lineReset (step { ready with rst := true, lineReset := false }) = some true
    ∧ look State.lineReset (step lastByteWaits) = some false ∧ lastByteWaits.lineReset = true := by decide +kernel

theorem witness_TraceOnlyGrows : lastByteWaits.rst = false
    ∧ look State.lineEvents (step lastByteWaits) = some [.reset false] := by decide +kernel

theorem witness_ParametersNeverChange : ∃ t, step { ready with rst := true } = .next t := ⟨_, rfl⟩

theorem witness_PhasesRefineATransaction :
    (busySingle.Inv ∧ busySingle.busy = true ∧ busySingle.atTransactionStart = true)
    ∧ (busyBatch.Inv ∧ busyBatch.busy = true ∧ busyBatch.atTransactionStart = true) :=
  ⟨⟨busySingle_inv, rfl, by decide⟩, ⟨busyBatch_inv, rfl, by decide +kernel⟩⟩

theorem witness_PhasesRefineADispatch :
    (fullSingle.Inv ∧ fullSingle.busy = false ∧ fullSingle.receiveOffset = fullSingle.receiveSize
      ∧ fullSingle.frameFormat = some .single
      ∧ decode fullSingle.params .single fullSingle.frameBytes = .ok (.ispCommandS 2 9 ⟨1, 2, 3, 4⟩, [])
      ∧ 0 < transactionCount (.ispCommandS 2 9 ⟨1, 2, 3, 4⟩))
    ∧ (fullBatch.Inv ∧ fullBatch.busy = false ∧ fullBatch.receiveOffset = fullBatch.receiveSize
      ∧ fullBatch.frameFormat = some .batch
      ∧ decode fullBatch.params .batch fullBatch.frameBytes = .ok (.ispCommandB 3 1 0xE2 batchBody, [])
      ∧ 0 < transactionCount (.ispCommandB 3 1 0xE2 batchBody)) :=
  ⟨⟨fullSingle_inv, by decide⟩, ⟨fullBatch_inv, by decide +kernel⟩⟩

theorem witness_EveryDispatchEnds : busyBatch.Inv ∧ phasedLast.Inv ∧ phasedLast.busy = true :=
  ⟨busyBatch_inv, phasedLast_inv, rfl⟩

/-- Both clauses: a step that changes DATA_OUT, and a step that samples. -/
theorem witness_DataChangesLowAndSamplesHigh :
    (phasedDrive.Inv ∧ phasedDrive.rst = false ∧ phasedDrive.busy = true ∧ phasedDrive.phased = true
      ∧ look State.lineDataOut (step phasedDrive) = some true ∧ phasedDrive.lineDataOut = false)
    ∧ (phasedSample.Inv ∧ phasedSample.rst = false ∧ phasedSample.busy = true ∧ phasedSample.phased = true
      ∧ look State.draws (step phasedSample) = some 1 ∧ phasedSample.draws = 0) :=
  ⟨⟨phasedDrive_inv, by decide⟩, ⟨phasedSample_inv, by decide⟩⟩

theorem witness_HostRoundTrip : ready.Quiescent
    ∧ [[0x02, 0x09], ([] : List Byte), [0x02, 0xAC, 0x53], [0x00, 0x00]].flatten
      = [0x02, 0x09, ready.params.opcIspCommand, 0xAC, 0x53, 0x00, 0x00] := ⟨ready_quiescent, by decide⟩

/-- Both frame sizes, cut into chunks. -/
theorem witness_UnknownFrameIsEchoed : ready.Quiescent
    ∧ (0x7F : Byte) ≠ ready.params.opcResetDevice ∧ (0x7F : Byte) ≠ ready.params.opcIspCommand
    ∧ (let bs : List Byte := [0x02, 0x15, 0x7F, 0x01, 0x02, 0x03, 0x04]
      bs.length = 7 ∧ [[0x02, 0x15], [], [0x7F, 0x01, 0x02, 0x03, 0x04]].flatten = bs ∧ bs[1]? = some 0x15
        ∧ bs[2]? = some 0x7F)
    ∧ (let bs : List Byte := [0x03, 0x19, 0x7F, 0x00] ++ batchBody
      bs.length = 133 ∧ (cutChunks 8 133 bs).flatten = bs ∧ bs[1]? = some 0x19 ∧ bs[2]? = some 0x7F) :=
  ⟨ready_quiescent, by decide, by decide, by decide, by decide +kernel⟩

theorem witness_ReadBetweenChunksMixesFrames : ready.Quiescent := ready_quiescent

/-- In the middle of a transaction too. -/
theorem witness_HardwareResetFromEveryState : ({ phasedSample with rst := true } : State).rst = true := rfl

/-- A write and a read as the command start; the first step takes it (V5.1, V7.5). -/
theorem witness_CommandStartIsTakenFirst : ∀ rd ∈ [false, true],
    let p : PortIn := ⟨false, true, rd, 0x02, true, 0x55⟩
    p.hCmdValid = true ∧ p.hWrValid = true ∧ p.rst = false ∧ ready.busy = false ∧ ready.hostQueue = []
    ∧ look State.hostQueue (step (ready.offer p)) = some [.data [0x55]]
    ∧ look (fun t => (t.receiveSize, t.answers)) (step (ready.offer p))
      = some (if rd then (0, [[]]) else (7, [])) := by decide

/-- A seven-byte answer; the empty answer after it; no answer yet. -/
theorem witness_PortsShowTheState :
    let a : List Byte := [0x01, 0x01, 0x2A, 0x00, 0xAC, 0x53, 0x00]
    ({ ready with answers := [a] } : State).answers = a :: [] ∧ a.length = 7
    ∧ ({ ready with answers := [a] } : State).ports.hWrDone = true
    ∧ ({ ready with answers := [[], a] } : State).answers = [] :: [a] ∧ ready.answers = [] := by decide

/-- P2: 133 bytes in chunks of 8 are 16 chunks of 8 and one of 5. -/
theorem witness_MaxChunkDoesNotMatter : ready.Quiescent
    ∧ (hostWriteReport ready.params 0x03 ([3, 1, 2, 0xE2] ++ batchBody)).length = 1 + 17
    ∧ (cutChunks 8 133 ([3, 1, 2, 0xE2] ++ batchBody)).map List.length = List.replicate 16 8 ++ [5] :=
  ⟨ready_quiescent, by decide +kernel, by decide +kernel⟩

/-- A command start, a chunk that completes no frame, one that is dropped, and reads of reports 1 and 2. -/
theorem witness_StepTakesTheOldestEvent :
    ∀ e ∈ [HostEvent.startWrite 0x02, .data [0x02, 0x09], .data [], .startRead 0x01, .startRead 0x02],
      let s : State := { ready with hostQueue := [e, .startRead 0x01] }
      s.rst = false ∧ s.busy = false ∧ s.hostQueue = e :: [.startRead 0x01] := by decide

/-- A frame in two chunks waits, and a read behind it. -/
def waiting : State :=
  { ready with hostQueue := [.startWrite 0x02, .data [0x02, 0x09, 0x01], .data [1, 0, 0, 0], .startRead 0x01] }

theorem witness_StepsTakeTheWaitingEvents : waiting.Quiescent ∧ waiting.rst = false
    ∧ waiting.hostQueue = [.startWrite 0x02, .data [0x02, 0x09, 0x01], .data [1, 0, 0, 0]] ++ [.startRead 0x01]
    ∧ look (fun t => (t.lineReset, t.hostQueue)) (stepMany 3 waiting) = some (false, [.startRead 0x01]) :=
  ⟨⟨⟨ready_inv.params, ready_inv.rxbuf, ready_inv.size, ready_inv.offset, ready_inv.quiet, ready_inv.idle,
    ready_inv.frame, ready_inv.clock, ready_inv.wait⟩, rfl, rfl⟩, rfl, rfl, by decide +kernel⟩

/-- The last phase of a transaction. -/
def phasedEnd : State :=
  { busySingle with
    phased := true, byteIdx := 3, bitIdx := 0, phase := .lowerClock, lineClock := true, rsr := 4, resp := ⟨1, 2, 3, 0⟩ }

/-- Every clause: a hardware reset; a transaction run whole; its last phase; the completing chunk of a single frame and
of a batch frame of two (loopback). -/
theorem witness_OnlyCompletedIspFramesChangeTheReply :
    look State.reply (step { ready with rst := true, reply := ⟨1, 2, 3, 4⟩ }) = some Quad.zero
    ∧ (busySingle.reply = Quad.zero ∧ look State.reply (step busySingle) = some ⟨1, 2, 3, 4⟩)
    ∧ (phasedEnd.reply = Quad.zero ∧ look State.reply (step phasedEnd) = some ⟨1, 2, 3, 4⟩)
    ∧ look State.reply (step (State.answering [1, 2, 3, 4]
        { ready.startWrite 0x02 with hostQueue := [.data [2, 9, 2, 1, 2, 3, 4]] })) = some ⟨1, 2, 3, 4⟩
    ∧ look State.reply (step (State.answering (rising 1 8)
        { ready.startWrite 0x03 with hostQueue := [.data ([3, 1, 2, 0xE2] ++ batchBody)] })) = some ⟨5, 6, 7, 8⟩ := by
  decide +kernel

end Sys2Proof.Tests
end

/-! ## The operation of a complete frame (R37) -/

namespace Sys2Proof.Machine

theorem State.frameInstr_single {s : State} (h : s.receiveSize = rxSizeSingle) :
    s.frameInstr = decodeSingle s.params (s.rxbuf.load 0) (s.rxbuf.load 1) (s.rxbuf.load 2) (s.rxbuf.load 3)
      (s.rxbuf.load 4) (s.rxbuf.load 5) (s.rxbuf.load 6) :=
  if_pos h

theorem State.frameInstr_batch {s : State} (h : s.receiveSize = rxSizeBatch) :
    s.frameInstr = decodeBatch s.params (s.rxbuf.load 0) (s.rxbuf.load 1) (s.rxbuf.load 2) (s.rxbuf.load 3)
      s.frameBody :=
  if_neg (by rw [h]; decide)

theorem dispatchFrame_single {s : State} (h : s.receiveSize = rxSizeSingle) :
    dispatchFrame s = dispatchInstr (decodeSingle s.params (s.rxbuf.load 0) (s.rxbuf.load 1) (s.rxbuf.load 2)
      (s.rxbuf.load 3) (s.rxbuf.load 4) (s.rxbuf.load 5) (s.rxbuf.load 6)) s := by
  rw [dispatchFrame_eq (State.frameFormat_single h), State.frameInstr_single h]

theorem dispatchFrame_batch {s : State} (h : s.receiveSize = rxSizeBatch) :
    dispatchFrame s = dispatchInstr (decodeBatch s.params (s.rxbuf.load 0) (s.rxbuf.load 1) (s.rxbuf.load 2)
      (s.rxbuf.load 3) s.frameBody) s := by
  rw [dispatchFrame_eq (State.frameFormat_batch h), State.frameInstr_batch h]

theorem State.startWrite_single_receiveSize (s : State) :
    (s.startWrite reportSingleId).receiveSize = rxSizeSingle := by
  rw [State.startWrite_receiveSize, if_pos rfl]

theorem State.startWrite_batch_receiveSize (s : State) :
    (s.startWrite reportBatchId).receiveSize = rxSizeBatch := by
  rw [State.startWrite_receiveSize, if_neg (by decide), if_pos rfl]

theorem takeRead_status_eq_exec (s : State) : takeRead reportStatusId s = exec .statusRead s :=
  takeRead_status s

/-- Settles O4: a frame of each size dispatches what the layout's decoder (`decodeSingle`, `decodeBatch`) selects by
the opcode byte. -/
theorem opcodeAndSizeSelectTheOperation : Obligations.OpcodeAndSizeSelectTheOperation := by
  unfold Obligations.OpcodeAndSizeSelectTheOperation
  refine ⟨fun s hsize => ?single, fun s hsize => ?batch, fun s => ?size, takeRead_status_eq_exec⟩
  case single => exact dispatchFrame_single hsize
  case batch => exact dispatchFrame_batch hsize
  case size => exact ⟨s.startWrite_single_receiveSize, s.startWrite_batch_receiveSize⟩

end Sys2Proof.Machine

/-! ## The signal driver's transaction and reset line (R44, R45) -/

namespace Sys2Proof.Machine

/-- `setReset` writes the negated flag to the reset line, with its one event (R45). -/
theorem State.setReset_eq (a : Bool) (s : State) :
    s.setReset a = { s with lineReset := !a, trace := .reset (!a) :: s.trace } := by
  cases a with
  | false => rfl
  | true => rfl

/-- Settles O11: both flags of `State.setReset_eq`. -/
theorem setResetDrivesTheResetLine : Obligations.SetResetDrivesTheResetLine := by
  unfold Obligations.SetResetDrivesTheResetLine
  exact fun s => ⟨s.setReset_eq true, s.setReset_eq false⟩

/-! ### Counting the events of a run of bits (R42) -/

theorem samplesIn_append (as bs : List LineEvent) : samplesIn (as ++ bs) = samplesIn as ++ samplesIn bs :=
  List.filterMap_append

theorem settleCount_append (as bs : List LineEvent) : settleCount (as ++ bs) = settleCount as + settleCount bs :=
  List.countP_append

theorem samplesIn_bitEvents (v s : Level) : samplesIn (bitEvents v s) = [s] := rfl

theorem settleCount_bitEvents (v s : Level) : settleCount (bitEvents v s) = 2 := rfl

/-- Six events a bit. -/
theorem length_bitsEvents : ∀ {vs ss : List Level}, vs.length = ss.length →
    (bitsEvents vs ss).length = 6 * vs.length
  | [], [], _ => rfl
  | v :: vs, s :: ss, h => by
    rw [bitsEvents_cons, List.length_append, length_bitsEvents (Nat.succ.inj h), List.length_cons, Nat.mul_succ,
      Nat.add_comm]
    rfl

/-- The samples of a run of bits are the levels read, in order. -/
theorem samplesIn_bitsEvents : ∀ {vs ss : List Level}, vs.length = ss.length → samplesIn (bitsEvents vs ss) = ss
  | [], [], _ => rfl
  | v :: vs, s :: ss, h => by
    rw [bitsEvents_cons, samplesIn_append, samplesIn_bitEvents, samplesIn_bitsEvents (Nat.succ.inj h),
      List.singleton_append]

/-- Two settle delays a bit. -/
theorem settleCount_bitsEvents : ∀ {vs ss : List Level}, vs.length = ss.length →
    settleCount (bitsEvents vs ss) = 2 * vs.length
  | [], [], _ => rfl
  | v :: vs, s :: ss, h => by
    rw [bitsEvents_cons, settleCount_append, settleCount_bitEvents, settleCount_bitsEvents (Nat.succ.inj h),
      List.length_cons, Nat.mul_succ, Nat.add_comm]

theorem length_quadBits (c : Quad) : (quadBits c).length = 32 := rfl

/-- The levels a transaction samples are the target's next 32 (R28). -/
theorem State.presents_quadLevels (c : Quad) (s : State) : s.Presents 32 (s.quadLevels c) :=
  ⟨s.length_quadLevels c, s.quadLevels_take c⟩

theorem exec_ispTransaction (c : Quad) (s : State) : exec (.ispTransaction c) s = .next (s.issueCommand c) := rfl

/-- Settles O10: the state is that of `State.issueCommand_eq`; the events are counted over the 32 bits of `traceOf`. -/
theorem ispTransactionCompletes : Obligations.IspTransactionCompletes := by
  unfold Obligations.IspTransactionCompletes
  intro c s
  have hlen : (quadBits c).length = (s.quadLevels c).length := by rw [length_quadBits, State.length_quadLevels]
  refine ⟨s.quadLevels c, s.presents_quadLevels c, ?_, length_bitsEvents hlen, samplesIn_bitsEvents hlen,
    settleCount_bitsEvents hlen⟩
  rw [exec_ispTransaction, State.issueCommand_eq]

/-! ## The line-event trace only grows (R49)

The field `trace` is newest first, so that it grows means that the old trace is a suffix of the new one. -/

theorem exec_trace_suffix {i : Instr} {s t : State} (h : exec i s = .next t) : s.trace <:+ t.trace := by
  obtain ⟨_, _, _, _, _, _, es, _, _, _, rfl⟩ := exec_frame h
  exact List.suffix_append es s.trace

theorem dispatchInstr_trace_suffix {i : Instr} {s t : State} (h : dispatchInstr i s = .next t) :
    s.trace <:+ t.trace := by
  rcases dispatchInstr_cases h with ⟨-, -, rfl⟩ | ⟨u, hu, rfl⟩
  · exact List.suffix_rfl
  · exact (exec_trace_suffix hu :)

theorem takeData_trace_suffix {bs : List Byte} {s t : State} (h : takeData bs s = .next t) :
    s.trace <:+ t.trace := by
  rcases takeData_cases h with ⟨-, rfl⟩ | ⟨-, -, -, rfl⟩ | ⟨-, -, -, hd⟩
  · exact List.suffix_rfl
  · exact List.suffix_rfl
  · obtain ⟨_, -, hi⟩ := dispatchFrame_cases hd
    exact (dispatchInstr_trace_suffix hi :)

theorem takeEvent_trace_suffix {e : HostEvent} {s t : State} (h : takeEvent e s = .next t) :
    s.trace <:+ t.trace := by
  cases e with
  | startWrite id => cases h; exact List.suffix_rfl
  | data bs => exact takeData_trace_suffix h
  | startRead id =>
    obtain ⟨a, ha⟩ := takeRead_cases id s
    cases ha.symm.trans h
    exact List.suffix_rfl

theorem State.endTransaction_trace (s : State) : s.endTransaction.trace = s.trace := by
  obtain ⟨x, b, h⟩ := s.endTransaction_frame
  rw [h]

theorem continueDispatch_trace_suffix {s t : State} (h : continueDispatch s = .next t) : s.trace <:+ t.trace := by
  rcases continueDispatch_cases s with ⟨-, -, hc⟩ | hc
  · cases hc.symm.trans h
    rw [State.endTransaction_trace, State.issueCommand_eq]
    exact List.suffix_append _ _
  · cases hc.symm.trans h
    obtain ⟨es, he⟩ := s.phaseStep_trace
    exact ⟨es, he.symm⟩

theorem step_trace_suffix {s t : State} (hr : s.rst = false) (h : step s = .next t) : s.trace <:+ t.trace := by
  rcases step_cases h with ⟨hr', -⟩ | ⟨-, -, hc⟩ | ⟨-, -, -, rfl⟩ | ⟨-, -, e, es, -, he⟩
  · exact absurd hr' (by rw [hr]; decide)
  · exact continueDispatch_trace_suffix hc
  · exact List.suffix_rfl
  · exact (takeEvent_trace_suffix he :)

/-- Settles O37: a suffix of the newest-first trace is an initial part of the events in the order of R49. -/
theorem traceOnlyGrows : Obligations.TraceOnlyGrows := by
  unfold Obligations.TraceOnlyGrows
  intro s t hr h
  obtain ⟨es, he⟩ : s.lineEvents <+: t.lineEvents := List.reverse_prefix.mpr (step_trace_suffix hr h)
  exact ⟨es, he.symm⟩

end Sys2Proof.Machine

/-! ## A dispatch as phase steps (R13, R42, R49, R59) -/

namespace Sys2Proof.Machine

/-! ### One transaction as phase steps -/

/-- The four command bytes of transaction `k` of the frame in the buffer (R61, R62). -/
def State.commandQuad (s : State) (k : Nat) : Quad :=
  ⟨s.rxbuf.load (s.transactionBase k), s.rxbuf.load (s.transactionBase k + 1),
    s.rxbuf.load (s.transactionBase k + 2), s.rxbuf.load (s.transactionBase k + 3)⟩

/-- The command byte in progress is the byte `byteIdx` of the transaction in progress. -/
theorem State.commandByte_standAt (x : Fin 32) (j : Fin 4) (k : Fin 8) (s : State) :
    (s.standAt x j k).commandByte = (s.commandQuad x).get j :=
  match j with
  | 0 => rfl
  | 1 => rfl
  | 2 => rfl
  | 3 => rfl

@[simp] theorem State.transferInto_commandQuad (j : Fin 4) (b : Byte) (s : State) (k : Nat) :
    (s.transferInto j b).commandQuad k = s.commandQuad k := by
  rw [State.transferInto_eq]; rfl

@[simp] theorem State.transferInto_busy (j : Fin 4) (b : Byte) (s : State) :
    (s.transferInto j b).busy = s.busy := by
  rw [State.transferInto_eq]

@[simp] theorem State.transferInto_params (j : Fin 4) (b : Byte) (s : State) :
    (s.transferInto j b).params = s.params := by
  rw [State.transferInto_eq]

/-- Command bytes 0 to 2 as phase steps: the response byte is kept, and the block stands at the next byte (R44). -/
theorem State.phaseSteps_byte_of_lt (x : Fin 32) {j : Fin 4} (hj : j.val < 3) {s : State} (hb : s.busy = true)
    (hc : 1 ≤ s.params.settleCycles) :
    State.phaseSteps (8 * (4 + 2 * s.params.settleCycles)) (s.standAt x j 7)
      = (s.transferInto j ((s.commandQuad x).get j)).standAt x (j + 1) 7 := by
  rw [State.phaseSteps_byte x j hb hc, State.commandByte_standAt, State.endByte_of_lt x hj]
  rfl

/-- Command byte 3 as phase steps: the response byte is kept, and the transaction ends (R44). -/
theorem State.phaseSteps_byte_three (x : Fin 32) {s : State} (hb : s.busy = true)
    (hc : 1 ≤ s.params.settleCycles) :
    State.phaseSteps (8 * (4 + 2 * s.params.settleCycles)) (s.standAt x 3 7)
      = ((s.transferInto 3 ((s.commandQuad x).get 3)).standAt x 0 7).endTransaction := by
  rw [State.phaseSteps_byte x 3 hb hc, State.commandByte_standAt, State.endByte_three]
  rfl

/-- A whole transaction as phase steps is `issueCommand` of its four bytes and its caller's part (R44). -/
theorem State.phaseSteps_transaction (x : Fin 32) {s : State} (hb : s.busy = true)
    (hc : 1 ≤ s.params.settleCycles) :
    State.phaseSteps (32 * (4 + 2 * s.params.settleCycles)) (s.standAt x 0 7)
      = ((s.issueCommand (s.commandQuad x)).standAt x 0 7).endTransaction := by
  have h0 := State.phaseSteps_byte_of_lt x (j := 0) (by decide) hb hc
  have h1 := State.phaseSteps_byte_of_lt x (j := 1) (by decide)
    (s := s.transferInto 0 (s.commandQuad x).b0) (by simpa using hb) (by simpa using hc)
  have h2 := State.phaseSteps_byte_of_lt x (j := 2) (by decide)
    (s := (s.transferInto 0 (s.commandQuad x).b0).transferInto 1 (s.commandQuad x).b1)
    (by simpa using hb) (by simpa using hc)
  have h3 := State.phaseSteps_byte_three x
    (s := ((s.transferInto 0 (s.commandQuad x).b0).transferInto 1 (s.commandQuad x).b1).transferInto 2
      (s.commandQuad x).b2) (by simpa using hb) (by simpa using hc)
  simp only [State.transferInto_params, State.transferInto_commandQuad] at h1 h2 h3
  rw [show 32 * (4 + 2 * s.params.settleCycles) = 8 * (4 + 2 * s.params.settleCycles)
    + (8 * (4 + 2 * s.params.settleCycles) + (8 * (4 + 2 * s.params.settleCycles)
      + 8 * (4 + 2 * s.params.settleCycles))) by ring]
  exact State.phaseSteps_trans h0 (State.phaseSteps_trans h1 (State.phaseSteps_trans h2 h3))

/-! ### A run of transactions as phase steps -/

/-- What a transaction leaves alone of all the sequencer reads (R65). -/
theorem State.issueCommand_keeps (c : Quad) (s : State) :
    (s.issueCommand c).busy = s.busy ∧ (s.issueCommand c).params = s.params
      ∧ (s.issueCommand c).transactionTotal = s.transactionTotal
      ∧ (s.issueCommand c).commandQuad = s.commandQuad := by
  rw [State.issueCommand_eq]
  exact ⟨rfl, rfl, rfl, rfl⟩

/-- After a transaction that is not the last the block stands at the next one (R62). -/
theorem State.endTransaction_standAt_of_more {x : Fin 32} {s : State} (h : x.val + 1 < s.transactionTotal) :
    (s.standAt x 0 7).endTransaction = s.storeReply.standAt (x + 1) 0 7 :=
  State.endTransaction_of_more h

/-- After the last transaction the dispatch ends, its sequencing state idle (R13, R59). -/
theorem State.endTransaction_standAt_of_last {x : Fin 32} {s : State} (h : ¬ x.val + 1 < s.transactionTotal) :
    (s.standAt x 0 7).endTransaction = (s.storeReply.standAt 0 0 7).setBusy false :=
  State.endTransaction_of_last h

/-- A batch has at most 31 transactions (R35). -/
theorem batchCount_le (n : Byte) : batchCount n ≤ 31 := by
  rw [batchCount, BitVec.toNat_and]
  exact Nat.and_le_right

theorem State.transactionTotal_le (s : State) : s.transactionTotal ≤ 31 := by
  unfold State.transactionTotal
  split
  · decide
  · exact batchCount_le _

/-- The last `m + 1` transactions of a dispatch as phase steps are `issueAll` of them, and the dispatch's end (R62). -/
theorem State.phaseSteps_transactions : ∀ (m : Nat) {x : Fin 32} {s : State}, s.busy = true →
    1 ≤ s.params.settleCycles → x.val + (m + 1) = s.transactionTotal →
    State.phaseSteps ((m + 1) * (32 * (4 + 2 * s.params.settleCycles))) (s.standAt x 0 7)
      = ((s.issueAll ((List.range' x (m + 1)).map s.commandQuad)).standAt 0 0 7).setBusy false
  | 0, x, s, hb, hc, hx => by
    obtain ⟨-, -, htotal, -⟩ := s.issueCommand_keeps (s.commandQuad x)
    rw [Nat.zero_add, Nat.one_mul, State.phaseSteps_transaction x hb hc, List.range'_one, List.map_singleton,
      State.issueAll, State.issueAll]
    exact State.endTransaction_standAt_of_last (by omega)
  | m + 1, x, s, hb, hc, hx => by
    obtain ⟨hbusy, hparams, htotal, hquad⟩ := s.issueCommand_keeps (s.commandQuad x)
    have hle := s.transactionTotal_le
    have hnext : (x + 1).val = x.val + 1 := by omega
    rw [Nat.succ_mul, Nat.add_comm, State.phaseSteps_add, State.phaseSteps_transaction x hb hc,
      State.endTransaction_standAt_of_more (by omega), List.range'_succ, List.map_cons, State.issueAll]
    generalize s.issueCommand (s.commandQuad x) = u at *
    rw [← hparams, ← hquad, ← hnext]
    exact State.phaseSteps_transactions m (s := u.storeReply) (hbusy.trans hb) (hparams ▸ hc)
      (show _ = u.transactionTotal by omega)

/-! ### The transactions of a complete frame -/

/-- The body of a batch frame at a frame offset is the buffer's byte there (R31). -/
theorem State.bodyByte_frameBody (s : State) {k : Nat} (h4 : 4 ≤ k) (hk : k < rxSizeBatch) :
    bodyByte s.frameBody k = s.rxbuf.load k := by
  have hlt : k - 4 < batchBodyLen := by
    rw [rxSizeBatch] at hk
    rw [batchBodyLen]
    omega
  have hadd : 4 + (k - 4) = k := by omega
  simp [bodyByte, State.frameBody, hlt, hadd]

/-- The transaction slots of a batch frame in the buffer (R35). -/
theorem State.batchSlot_frameBody {s : State} (hp : s.params.wf = true) (hs : s.receiveSize = rxSizeBatch) {i : Nat}
    (hi : i < 31) : batchSlot s.params s.frameBody i = s.commandQuad i := by
  obtain ⟨hlo, hhi⟩ := Params.wf_batchBase hp
  have hbase : s.transactionBase i = s.params.batchBase + 4 * i := if_neg (by rw [hs]; decide)
  have hsize : rxSizeBatch = 133 := rfl
  rw [batchSlot, State.commandQuad, hbase]
  rw [s.bodyByte_frameBody, s.bodyByte_frameBody, s.bodyByte_frameBody, s.bodyByte_frameBody] <;> omega

/-- A single frame whose operation has a transaction is ISP_COMMAND (R60, R61, R63). -/
theorem decodeSingle_of_transaction {p : Params} {r q o a b c d : Byte}
    (h : 0 < transactionCount (decodeSingle p r q o a b c d)) :
    decodeSingle p r q o a b c d = .ispCommandS r q ⟨a, b, c, d⟩ := by
  by_cases hreset : o = p.opcResetDevice
  · rw [decodeSingle, if_pos hreset] at h; exact absurd h (Nat.lt_irrefl 0)
  by_cases hisp : o = p.opcIspCommand
  · rw [decodeSingle, if_neg hreset, if_pos hisp]
  · rw [decodeSingle, if_neg hreset, if_neg hisp] at h; exact absurd h (Nat.lt_irrefl 0)

/-- A batch frame whose operation has a transaction is ISP_COMMAND (R60, R62, R63). -/
theorem decodeBatch_of_transaction {p : Params} {r q o n : Byte} {body : List Byte}
    (h : 0 < transactionCount (decodeBatch p r q o n body)) :
    decodeBatch p r q o n body = .ispCommandB r q n body := by
  by_cases hreset : o = p.opcResetDevice
  · rw [decodeBatch, if_pos hreset] at h; exact absurd h (Nat.lt_irrefl 0)
  by_cases hisp : o = p.opcIspCommand
  · rw [decodeBatch, if_neg hreset, if_pos hisp]
  · rw [decodeBatch, if_neg hreset, if_neg hisp] at h; exact absurd h (Nat.lt_irrefl 0)

/-- The transactions of a batch frame in the buffer are those of its dispatch, in their order (R62). -/
theorem State.batchTransactions_frameBody {s : State} (hp : s.params.wf = true) (hs : s.receiveSize = rxSizeBatch)
    (n : Byte) : batchTransactions s.params n s.frameBody = (List.range' 0 (batchCount n)).map s.commandQuad := by
  rw [batchTransactions, List.range_eq_range']
  refine List.map_congr_left fun i hi => State.batchSlot_frameBody hp hs ?_
  have hcount := batchCount_le n
  have hrange := List.mem_range'_1.mp hi
  omega

/-- A complete frame with a transaction performs `transactionTotal` of them, those of the buffer in their order (R61,
R62). -/
theorem State.exec_frameInstr {s : State} {f : Format} (hp : s.params.wf = true) (hf : s.frameFormat = some f)
    (hn : 0 < transactionCount s.frameInstr) :
    transactionCount s.frameInstr = s.transactionTotal
      ∧ exec s.frameInstr (s.setBusy true)
        = .next ((s.setBusy true).issueAll ((List.range' 0 s.transactionTotal).map s.commandQuad)) := by
  rcases State.frameFormat_cases hf with ⟨-, hs⟩ | ⟨-, hs⟩
  · have htotal : s.transactionTotal = 1 := if_pos hs
    have hbase : s.transactionBase 0 = 3 := if_pos hs
    rw [State.frameInstr_single hs] at hn ⊢
    rw [decodeSingle_of_transaction hn, htotal, List.range'_one, List.map_singleton, State.commandQuad, hbase]
    exact ⟨rfl, rfl⟩
  · have htotal : s.transactionTotal = batchCount (s.rxbuf.load 3) := if_neg (by rw [hs]; decide)
    rw [State.frameInstr_batch hs] at hn ⊢
    rw [decodeBatch_of_transaction hn, htotal, ← State.batchTransactions_frameBody hp hs]
    exact ⟨rfl, rfl⟩

/-! ### The whole dispatch -/

/-- A state whose sequencing state is idle stands where a dispatch begins and ends (R13). -/
theorem State.standAt_of_idle {s : State} (h : s.atTransactionStart = true) (hx : s.txnIdx = 0) :
    s.standAt 0 0 7 = s := by
  simp only [State.atTransactionStart, Bool.and_eq_true, beq_iff_eq] at h
  obtain ⟨⟨⟨hj, hk⟩, hph⟩, hw⟩ := h
  rw [State.standAt, ← hx, ← hj, ← hk, ← hph, ← hw]

/-- A run of transactions leaves the sequencing state alone. -/
theorem State.issueAll_idle (cs : List Quad) (s : State) :
    (s.issueAll cs).atTransactionStart = s.atTransactionStart ∧ (s.issueAll cs).txnIdx = s.txnIdx := by
  obtain ⟨_, _, _, _, _, _, _, _, h⟩ := s.issueAll_frame cs
  rw [h]
  exact ⟨rfl, rfl⟩

/-- Settles O40: `dispatchWhole` is `issueAll` of the frame's transactions (`State.exec_frameInstr`), and so are the
phase steps (`State.phaseSteps_transactions`); both end with the sequencing state idle. -/
theorem phasesRefineADispatch : Obligations.PhasesRefineADispatch := by
  unfold Obligations.PhasesRefineADispatch
  intro s f i rest hinv hbusy _ hf hd hn
  cases (decode_frameBytes hf).symm.trans hd
  obtain ⟨hstart, hidx⟩ := hinv.idle hbusy
  obtain ⟨hcount, hexec⟩ := State.exec_frameInstr hinv.params hf hn
  obtain ⟨m, hm⟩ : ∃ m, s.transactionTotal = m + 1 := ⟨_, (Nat.sub_add_cancel (hcount ▸ hn)).symm⟩
  have hsteps := State.phaseSteps_transactions m (x := 0) (s := s.setBusy true) rfl
    (Params.wf_settleCycles hinv.params) ((Nat.zero_add _).trans hm.symm)
  have hend : ((s.setBusy true).issueAll ((List.range' 0 (m + 1)).map s.commandQuad)).standAt 0 0 7
      = (s.setBusy true).issueAll ((List.range' 0 (m + 1)).map s.commandQuad) := by
    obtain ⟨hstart', hidx'⟩ := (s.setBusy true).issueAll_idle ((List.range' 0 (m + 1)).map s.commandQuad)
    exact State.standAt_of_idle (hstart'.trans hstart) (hidx'.trans hidx)
  rw [dispatchWhole, hexec, andThen_next, hcount, hm, ← hend]
  exact congrArg _ hsteps.symm

end Sys2Proof.Machine

/-! ## A chunk appends with clamp (R53, R54) -/

namespace Sys2Proof.Machine

/-- The clamped bytes of a chunk are as many as the clamp says (R53). -/
theorem State.length_take_acceptCount (s : State) (bs : List Byte) :
    (bs.take (s.acceptCount bs)).length = s.acceptCount bs :=
  List.length_take_of_le (s.acceptCount_le bs).1

/-- A legal state's frame fits the receive buffer (R11, R20). -/
theorem State.Inv.receiveSize_le {s : State} (h : s.Inv) : s.receiveSize ≤ rxbufLen := by
  rcases h.size with hs | hs | hs <;> rw [hs] <;> decide

/-- What the clamp accepts in a legal state stays within the frame (R14, R53). -/
theorem State.Inv.offset_add_acceptCount_le {s : State} (h : s.Inv) (bs : List Byte) :
    s.receiveOffset + s.acceptCount bs ≤ s.receiveSize := by
  have hroom := (s.acceptCount_le bs).2
  have hoffset := h.offset
  omega

/-- A read of the buffer after an ascending store: the range written, and everything outside it as before. -/
theorem Memory.load_storeAll_range {m : Memory} {i : Nat} (bs : List Byte) (k : Nat) (hm : m.wf = true)
    (hfit : i + bs.length ≤ rxbufLen) :
    (m.storeAll i bs).load k = if i ≤ k ∧ k < i + bs.length then bs.getD (k - i) 0 else m.load k := by
  rw [Memory.load_storeAll bs k hm hfit]
  by_cases hlo : i ≤ k
  · by_cases hhi : k < i + bs.length
    · have hlt : k - i < bs.length := by omega
      rw [if_pos hlo, if_pos ⟨hlo, hhi⟩, List.getD_eq_getElem _ _ hlt, List.getD_eq_getElem _ _ hlt]
    · rw [if_pos hlo, if_neg (fun h => hhi h.2), List.getD_eq_default _ _ (by omega)]
  · rw [if_neg hlo, if_neg (fun h => hlo h.1)]

/-- In a legal state a chunk is the append of its clamped bytes, dispatched exactly when it stores the frame's last
byte (R53, R54). -/
theorem takeData_eq_append {s : State} (hinv : s.Inv) (bs : List Byte) :
    takeData bs s =
      if 0 < s.acceptCount bs ∧ s.receiveOffset + s.acceptCount bs = s.receiveSize then
        dispatchFrame (s.append (bs.take (s.acceptCount bs)))
      else .next (s.append (bs.take (s.acceptCount bs))) := by
  have hfit : s.receiveOffset + s.acceptCount bs ≤ rxbufLen :=
    (hinv.offset_add_acceptCount_le bs).trans hinv.receiveSize_le
  rcases Nat.eq_zero_or_pos (s.acceptCount bs) with h0 | h0
  · rw [takeData_of_none h0, if_neg (fun h => absurd h.1 (by omega)), h0]
    rfl
  · by_cases hfull : s.receiveOffset + s.acceptCount bs = s.receiveSize
    · rw [takeData_of_complete h0 hfit hfull, if_pos ⟨h0, hfull⟩]
    · rw [takeData_of_part h0 hfit hfull, if_neg (fun h => hfull h.2)]

/-- Settles O24: the buffer is the store of the clamped bytes, which fit it in a legal state; the outcome is that of
`takeData_eq_append`. -/
theorem dataAppendsWithClamp : Obligations.DataAppendsWithClamp := by
  unfold Obligations.DataAppendsWithClamp
  intro bs s hinv
  have hlen := s.length_take_acceptCount bs
  have hfit : s.receiveOffset + (bs.take (s.acceptCount bs)).length ≤ rxbufLen := by
    rw [hlen]
    exact (hinv.offset_add_acceptCount_le bs).trans hinv.receiveSize_le
  refine ⟨s.rxbuf.storeAll s.receiveOffset (bs.take (s.acceptCount bs)), Memory.wf_storeAll _ hinv.rxbuf hfit,
    fun k => ?_, ?_⟩
  · rw [Memory.load_storeAll_range _ k hinv.rxbuf hfit, hlen]
    refine if_ctx_congr Iff.rfl (fun hk => ?_) fun _ => rfl
    have hlt : k - s.receiveOffset < s.acceptCount bs := Nat.sub_lt_left_of_lt_add hk.1 hk.2
    rw [List.getD_eq_getElem?_getD, List.getElem?_take_of_lt hlt, ← List.getD_eq_getElem?_getD]
  · rw [takeData_eq_append hinv, State.append, hlen]
    rfl

end Sys2Proof.Machine

/-! ## ISP_COMMAND in a single and in a batch frame (R61, R62) -/

namespace Sys2Proof.Machine

theorem exec_ispCommandS (r q : Byte) (c : Quad) (s : State) :
    exec (.ispCommandS r q c) s = .next (s.issueCommand c).storeReply := rfl

theorem exec_ispCommandB (r q n : Byte) (body : List Byte) (s : State) :
    exec (.ispCommandB r q n body) s = .next (s.issueAll (batchTransactions s.params n body)) := rfl

/-! ### The events of a run of transactions (R49, R92) -/

/-- 192 events a transaction. -/
theorem length_traceOf (c : Quad) {ss : List Level} (h : ss.length = 32) : (traceOf c ss).length = 192 :=
  length_bitsEvents h.symm

/-- 64 settle delays a transaction. -/
theorem settleCount_traceOf (c : Quad) {ss : List Level} (h : ss.length = 32) : settleCount (traceOf c ss) = 64 :=
  settleCount_bitsEvents h.symm

/-- A run of transactions has 192 events and 64 settle delays each. -/
theorem State.length_and_settleCount_traces : ∀ (cs : List Quad) (s : State),
    (List.zipWith traceOf cs (s.allLevels cs)).flatten.length = 192 * cs.length
      ∧ settleCount (List.zipWith traceOf cs (s.allLevels cs)).flatten = 64 * cs.length
  | [], _ => ⟨rfl, rfl⟩
  | c :: cs, s => by
    obtain ⟨hlen, hsettle⟩ := State.length_and_settleCount_traces cs (s.issueCommand c).storeReply
    rw [State.allLevels, List.zipWith_cons_cons, List.flatten_cons, List.length_append, settleCount_append, hlen,
      hsettle, length_traceOf c (s.length_quadLevels c), settleCount_traceOf c (s.length_quadLevels c),
      List.length_cons]
    omega

/-- The levels a run of transactions samples are the target's next ones (R28). -/
theorem State.presents_allLevels (cs : List Quad) (s : State) :
    s.Presents (32 * cs.length) (s.allLevels cs).flatten :=
  ⟨State.length_flatten_allLevels cs s, State.allLevels_take cs s⟩

/-- Settles O14: the state is that of `State.issueAndStore_eq`. -/
theorem ispSingleStoresItsReply : Obligations.IspSingleStoresItsReply := by
  unfold Obligations.IspSingleStoresItsReply
  intro r q c s
  refine ⟨s.quadLevels c, s.presents_quadLevels c, ?_, length_traceOf c (s.length_quadLevels c)⟩
  rw [exec_ispCommandS, State.issueAndStore_eq]

/-! ### The transactions of a batch frame (R35) -/

/-- The count is the number in bits 4:0 of its byte. -/
theorem batchCount_eq_mod (n : Byte) : batchCount n = n.toNat % 32 := by
  rw [batchCount, BitVec.toNat_and]
  exact Nat.and_two_pow_sub_one_eq_mod n.toNat 5

/-- Past its four header bytes an encoded batch frame is its body (R31). -/
theorem getD_encode_ispCommandB (p : Params) (r q n : Byte) (body : List Byte) {k : Nat} (h : 4 ≤ k) :
    (encode p (.ispCommandB r q n body)).getD k 0 = bodyByte body k := by
  obtain ⟨j, rfl⟩ := Nat.exists_eq_add_of_le' h
  rfl

/-- A transaction slot is the four bytes of the encoded frame from `BATCH_BASE + 4i` on. -/
theorem batchSlot_eq_encode {p : Params} (hp : p.wf = true) (r q n : Byte) (body : List Byte) (i : Nat) :
    batchSlot p body i =
      ⟨(encode p (.ispCommandB r q n body)).getD (p.batchBase + 4 * i) 0,
        (encode p (.ispCommandB r q n body)).getD (p.batchBase + 4 * i + 1) 0,
        (encode p (.ispCommandB r q n body)).getD (p.batchBase + 4 * i + 2) 0,
        (encode p (.ispCommandB r q n body)).getD (p.batchBase + 4 * i + 3) 0⟩ := by
  obtain ⟨hbase, -⟩ := Params.wf_batchBase hp
  rw [getD_encode_ispCommandB, getD_encode_ispCommandB, getD_encode_ispCommandB, getD_encode_ispCommandB, batchSlot]
    <;> omega

@[simp] theorem length_batchTransactions (p : Params) (n : Byte) (body : List Byte) :
    (batchTransactions p n body).length = batchCount n := by
  simp [batchTransactions]

theorem getElem?_batchTransactions (p : Params) {n : Byte} (body : List Byte) {i : Nat} (h : i < batchCount n) :
    (batchTransactions p n body)[i]? = some (batchSlot p body i) := by
  simp [batchTransactions, h]

/-- The state after any run of transactions (R62): the last one decides, and with none nothing changes. -/
theorem State.issueAll_eq (cs : List Quad) (s : State) :
    s.issueAll cs = { s with
      lineDataOut := (cs.getLast?.map fun c => c.b3.getLsbD 0).getD s.lineDataOut
      lineClock := if cs = [] then s.lineClock else false
      rsr := ((s.allLevels cs).getLast?.map fun ss => (responseOf ss).b3).getD s.rsr
      resp := ((s.allLevels cs).getLast?.map responseOf).getD s.resp
      reply := ((s.allLevels cs).getLast?.map responseOf).getD s.reply
      trace := ((List.zipWith traceOf cs (s.allLevels cs)).flatten).reverse ++ s.trace
      targetIn := s.targetIn.drop (32 * cs.length)
      draws := s.draws + 32 * cs.length } := by
  cases cs with
  | nil => rfl
  | cons c cs =>
    have hlast : (s.allLevels (c :: cs)).getLast? = some ((s.allLevels (c :: cs)).getLastD []) := by
      rw [State.allLevels, List.getLast?_cons, List.getLastD_cons, List.getLastD_eq_getLast?]
    rw [State.issueAll_cons, hlast, List.getLast?_eq_some_getLast (List.cons_ne_nil c cs),
      if_neg (List.cons_ne_nil c cs)]
    rfl

/-- Settles O15: the state is that of `State.issueAll_eq` for the frame's slots. -/
theorem ispBatchKeepsTheLastReply : Obligations.IspBatchKeepsTheLastReply := by
  unfold Obligations.IspBatchKeepsTheLastReply
  intro r q n body s hp
  obtain ⟨hevents, hsettles⟩ := s.length_and_settleCount_traces (batchTransactions s.params n body)
  refine ⟨batchTransactions s.params n body, s.allLevels (batchTransactions s.params n body), ?count, ?slots,
    s.length_allLevels _, fun ss => State.length_of_mem_allLevels, s.presents_allLevels _, ?state, hevents, hsettles⟩
  case count => rw [length_batchTransactions, batchCount_eq_mod]
  case slots =>
    intro i hi
    rw [getElem?_batchTransactions s.params body (batchCount_eq_mod n ▸ hi), batchSlot_eq_encode hp]
  case state => rw [exec_ispCommandB, State.issueAll_eq]

end Sys2Proof.Machine

/-! ## What moves the reset line (R60, R81) -/

namespace Sys2Proof.Machine

/-! ### The signal driver leaves the reset line alone (R42 to R44) -/

theorem State.issueCommand_lineReset (c : Quad) (s : State) : (s.issueCommand c).lineReset = s.lineReset := by
  rw [State.issueCommand_eq]

theorem State.issueAll_lineReset (cs : List Quad) (s : State) : (s.issueAll cs).lineReset = s.lineReset := by
  rw [State.issueAll_eq]

theorem State.endTransaction_lineReset (s : State) : s.endTransaction.lineReset = s.lineReset := by
  obtain ⟨_, _, h⟩ := s.endTransaction_frame
  rw [h]

theorem continueDispatch_lineReset {s t : State} (h : continueDispatch s = .next t) :
    t.lineReset = s.lineReset := by
  rcases continueDispatch_cases s with ⟨-, -, hc⟩ | hc
  · cases hc.symm.trans h
    rw [State.endTransaction_lineReset, State.issueCommand_lineReset]
  · cases hc.symm.trans h
    obtain ⟨-, -, -, -, hline, -⟩ := s.phaseStep_keeps
    exact hline

/-! ### The flag byte of an instruction (R34) -/

/-- The byte that RESET_DEVICE reads its flag from; no other instruction has one. -/
def flagByte : Instr → Option Byte
  | .resetDeviceS _ _ f _ _ _ => some f
  | .resetDeviceB _ _ f _ => some f
  | .ispCommandS _ _ _ => none
  | .ispCommandB _ _ _ _ => none
  | .unknownS _ _ _ _ _ _ _ => none
  | .unknownB _ _ _ _ _ => none
  | .statusRead => none
  | .ispTransaction _ => none

/-- The line is low exactly when the flag byte is not 0x00 (R34, R45). -/
theorem State.setReset_resetFlag_lineReset (f : Byte) (s : State) :
    (s.setReset (resetFlag f)).lineReset = decide (f = 0x00) := by
  rw [State.setReset_lineReset, resetFlag, bne, Bool.not_not]
  rfl

/-- An instruction sets the reset line by its flag byte, and without one leaves it alone (R60). -/
theorem exec_lineReset {i : Instr} {s t : State} (h : exec i s = .next t) :
    t.lineReset = ((flagByte i).map fun f => decide (f = 0x00)).getD s.lineReset := by
  cases i with
  | resetDeviceS r q f x1 x2 x3 => obtain rfl := Host.Outcome.next.inj h; exact s.setReset_resetFlag_lineReset f
  | resetDeviceB r q f body => obtain rfl := Host.Outcome.next.inj h; exact s.setReset_resetFlag_lineReset f
  | ispCommandS r q c => obtain rfl := Host.Outcome.next.inj h; exact s.issueCommand_lineReset c
  | ispCommandB r q n body => obtain rfl := Host.Outcome.next.inj h; exact s.issueAll_lineReset _
  | unknownS r q o x0 x1 x2 x3 => obtain rfl := Host.Outcome.next.inj h; rfl
  | unknownB r q o x body => obtain rfl := Host.Outcome.next.inj h; rfl
  | statusRead => obtain rfl := Host.Outcome.next.inj h; rfl
  | ispTransaction c => obtain rfl := Host.Outcome.next.inj h; exact s.issueCommand_lineReset c

/-- The opcode byte decides whether a single frame has a flag byte, payload byte 0 (R37). -/
theorem flagByte_decodeSingle (p : Params) (r q o a b c d : Byte) :
    flagByte (decodeSingle p r q o a b c d) = if o = p.opcResetDevice then some a else none := by
  unfold decodeSingle
  split
  · rfl
  · split <;> rfl

/-- The opcode byte decides whether a batch frame has a flag byte, payload byte 0 (R37, decision D19). -/
theorem flagByte_decodeBatch (p : Params) (r q o n : Byte) (body : List Byte) :
    flagByte (decodeBatch p r q o n body) = if o = p.opcResetDevice then some n else none := by
  unfold decodeBatch
  split
  · rfl
  · split <;> rfl

theorem flagByte_frameInstr (s : State) :
    flagByte s.frameInstr = if s.rxbuf.load 2 = s.params.opcResetDevice then some (s.rxbuf.load 3) else none := by
  unfold State.frameInstr
  split
  · exact flagByte_decodeSingle ..
  · exact flagByte_decodeBatch ..

/-! ### From a dispatch to a step -/

/-- A dispatch leaves the frame it dispatches as it stands (R65). -/
theorem dispatchFrame_keeps {s t : State} (h : dispatchFrame s = .next t) :
    t.params = s.params ∧ t.rxbuf = s.rxbuf ∧ t.receiveOffset = s.receiveOffset
      ∧ t.receiveSize = s.receiveSize := by
  obtain ⟨_, -, hi⟩ := dispatchFrame_cases h
  rcases dispatchInstr_cases hi with ⟨-, -, rfl⟩ | ⟨u, hu, rfl⟩
  · exact ⟨rfl, rfl, rfl, rfl⟩
  · obtain ⟨_, _, _, _, _, _, _, _, _, _, rfl⟩ := exec_frame hu
    exact ⟨rfl, rfl, rfl, rfl⟩

/-- A dispatch that moves the reset line is that of a RESET_DEVICE frame, by its payload byte 0 (R60). -/
theorem dispatchFrame_lineReset_of_ne {s t : State} (h : dispatchFrame s = .next t)
    (hne : t.lineReset ≠ s.lineReset) :
    s.rxbuf.load 2 = s.params.opcResetDevice ∧ t.lineReset = decide (s.rxbuf.load 3 = 0x00) := by
  obtain ⟨_, -, hi⟩ := dispatchFrame_cases h
  rcases dispatchInstr_cases hi with ⟨-, -, rfl⟩ | ⟨u, hu, rfl⟩
  · exact absurd rfl hne
  · have hline := exec_lineReset hu
    rw [flagByte_frameInstr] at hline
    by_cases hopc : s.rxbuf.load 2 = s.params.opcResetDevice
    · rw [if_pos hopc] at hline
      exact ⟨hopc, hline⟩
    · rw [if_neg hopc] at hline
      exact absurd hline hne

/-- A chunk that moves the reset line completes a RESET_DEVICE frame (R53, R54, R60). -/
theorem takeData_lineReset_of_ne {bs : List Byte} {s t : State} (h : takeData bs s = .next t)
    (hne : t.lineReset ≠ s.lineReset) :
    0 < s.acceptCount bs ∧ t.receiveOffset = t.receiveSize ∧ t.rxbuf.load 2 = t.params.opcResetDevice
      ∧ t.lineReset = decide (t.rxbuf.load 3 = 0x00) := by
  rcases takeData_cases h with ⟨-, rfl⟩ | ⟨-, -, -, rfl⟩ | ⟨hpos, -, hfull, hd⟩
  · exact absurd rfl hne
  · exact absurd rfl hne
  · obtain ⟨hparams, hrxbuf, hoffset, hsize⟩ := dispatchFrame_keeps hd
    obtain ⟨hopc, hline⟩ := dispatchFrame_lineReset_of_ne hd hne
    rw [hparams, hrxbuf, hoffset, hsize, State.append_receiveOffset, State.length_take_acceptCount]
    exact ⟨hpos, hfull, hopc, hline⟩

/-- An event that moves the reset line is a chunk (R52, R67, R69). -/
theorem takeEvent_lineReset_of_ne {e : HostEvent} {s t : State} (h : takeEvent e s = .next t)
    (hne : t.lineReset ≠ s.lineReset) : ∃ bs, e = .data bs ∧ takeData bs s = .next t := by
  cases e with
  | startWrite id => cases h; exact absurd rfl hne
  | data bs => exact ⟨bs, rfl, h⟩
  | startRead id =>
    obtain ⟨a, ha⟩ := takeRead_cases id s
    cases ha.symm.trans h
    exact absurd rfl hne

/-- Settles O36: of the cases of a step only the hardware reset and a chunk that completes a RESET_DEVICE frame move
the line. -/
theorem onlyResetDeviceMovesTheResetLine : Obligations.OnlyResetDeviceMovesTheResetLine := by
  unfold Obligations.OnlyResetDeviceMovesTheResetLine
  intro s t h hne
  rcases step_cases h with ⟨hrst, -⟩ | ⟨-, -, hc⟩ | ⟨-, -, -, rfl⟩ | ⟨-, hbusy, e, es, hqueue, he⟩
  · exact .inl hrst
  · exact absurd (continueDispatch_lineReset hc) hne
  · exact absurd rfl hne
  · obtain ⟨bs, rfl, hd⟩ := takeEvent_lineReset_of_ne he hne
    have hmoved := takeData_lineReset_of_ne hd hne
    exact .inr ⟨hbusy, bs, es, hqueue, hmoved⟩

end Sys2Proof.Machine

/-! ## What the decoder refuses (R38, R39, R69) -/

namespace Sys2Proof.Machine

/-- Of bytes for a single frame only fewer than seven are refused (R39): the split is over how many there are. -/
theorem decode_single_refuses_iff (p : Params) (bs : List Byte) :
    (∃ e, decode p .single bs = .error e) ↔ bs.length < formatLength .single := by
  rcases bs with _ | ⟨r, _ | ⟨q, _ | ⟨o, _ | ⟨a, _ | ⟨b, _ | ⟨c, _ | ⟨d, rest⟩⟩⟩⟩⟩⟩⟩ <;>
    simp [decode, formatLength]

/-- Of bytes for a batch frame only fewer than 133 are refused (R39): four header bytes, then the length is tested. -/
theorem decode_batch_refuses_iff (p : Params) (bs : List Byte) :
    (∃ e, decode p .batch bs = .error e) ↔ bs.length < formatLength .batch := by
  rcases bs with _ | ⟨r, _ | ⟨q, _ | ⟨o, _ | ⟨n, rest⟩⟩⟩⟩
  case cons.cons.cons.cons =>
    have hformat : formatLength .batch = batchBodyLen + 4 := rfl
    have hlen : (r :: q :: o :: n :: rest).length = rest.length + 4 := rfl
    by_cases hfull : batchBodyLen ≤ rest.length
    · exact iff_of_false (by simp [decode, hfull]) (by omega)
    · exact iff_of_true (by simp [decode, hfull]) (by omega)
  all_goals simp [decode, formatLength]

/-- A read is refused exactly when its report id is missing or not 1 (R69). -/
theorem decode_status_refuses_iff (p : Params) (bs : List Byte) :
    (∃ e, decode p .status bs = .error e) ↔ bs.head? ≠ some reportStatusId := by
  cases bs with
  | nil => simp [decode]
  | cons id rest => by_cases h : id = reportStatusId <;> simp [decode, h]

/-- Of bytes for a transaction only fewer than four are refused. -/
theorem decode_serial_refuses_iff (p : Params) (bs : List Byte) :
    (∃ e, decode p .serial bs = .error e) ↔ bs.length < formatLength .serial := by
  rcases bs with _ | ⟨a, _ | ⟨b, _ | ⟨c, _ | ⟨d, rest⟩⟩⟩⟩ <;> simp [decode, formatLength]

/-- Settles O3: layout by layout; a missing report id is both a short read and a wrong head. -/
theorem decodeRefusesOnlyShortBytesAndOtherReports : Obligations.DecodeRefusesOnlyShortBytesAndOtherReports := by
  unfold Obligations.DecodeRefusesOnlyShortBytesAndOtherReports
  intro p f bs
  cases f with
  | single => simp [decode_single_refuses_iff]
  | batch => simp [decode_batch_refuses_iff]
  | serial => simp [decode_serial_refuses_iff]
  | status =>
    rw [decode_status_refuses_iff]
    cases bs <;> simp [formatLength, reportStatusId]

end Sys2Proof.Machine

/-! ## The status read (R67 to R70) -/

namespace Sys2Proof.Machine

theorem exec_statusRead (s : State) : exec .statusRead s = .next (s.answer s.statusReport) := rfl

/-- The status byte is that of the reset line's level (R68). -/
theorem State.statusByte_eq (s : State) : s.statusByte = statusOfLine s.params s.lineReset := by
  unfold State.statusByte State.resetAsserted
  cases s.lineReset <;> rfl

@[simp] theorem State.length_statusReport (s : State) : s.statusReport.length = 7 := by
  simp [State.statusReport, statusReportLen]

theorem State.getElem?_statusReport (s : State) {k : Nat} {v : Byte} (hk : k < 7)
    (hv : reportByte s.params s.statusByte (s.rxbuf.load 1) s.reply k = v) : s.statusReport[k]? = some v := by
  simp [State.statusReport, statusReportLen, seqOff, hk, hv]

/-- Each offset of the parameters holds its byte: they are nonzero and do not overlap (R32). -/
theorem reportByte_at_offsets {p : Params} (hp : p.wf = true) (status seq : Byte) (reply : Quad) :
    reportByte p status seq reply p.r1StatusOff = status
      ∧ reportByte p status seq reply p.r1SeqOff = seq
      ∧ reportByte p status seq reply p.r1ReplyOff = reply.b0
      ∧ reportByte p status seq reply (p.r1ReplyOff + 1) = reply.b1
      ∧ reportByte p status seq reply (p.r1ReplyOff + 2) = reply.b2
      ∧ reportByte p status seq reply (p.r1ReplyOff + 3) = reply.b3 := by
  obtain ⟨hstatus, hseq, hreply, hne, hdisjStatus, hdisjSeq⟩ := Params.wf_report hp
  unfold reportByte
  refine ⟨?_, ?_, ?_, ?_, ?_, ?_⟩ <;> simp (disch := omega) only [if_neg, if_true]

/-- The answer of a status read is the report of the state, its sequence byte that of the buffer (R67, R68). -/
theorem State.isReport_statusReport_of_load {s : State} {q : Byte} (hp : s.params.wf = true)
    (hq : s.rxbuf.load 1 = q) :
    IsReport s.params (statusOfLine s.params s.lineReset) q s.reply s.statusReport := by
  subst hq
  obtain ⟨hstatus, hseq, hreply, -⟩ := Params.wf_report hp
  obtain ⟨bstatus, bseq, b0, b1, b2, b3⟩ := reportByte_at_offsets hp s.statusByte (s.rxbuf.load 1) s.reply
  rw [← s.statusByte_eq]
  exact ⟨s.length_statusReport, rfl, s.getElem?_statusReport (by omega) bstatus,
    s.getElem?_statusReport (by omega) bseq, s.getElem?_statusReport (by omega) b0,
    s.getElem?_statusReport (by omega) b1, s.getElem?_statusReport (by omega) b2,
    s.getElem?_statusReport (by omega) b3⟩

/-- Settles O17: the answer is `State.statusReport`. -/
theorem statusReadReportsTheState : Obligations.StatusReadReportsTheState := by
  unfold Obligations.StatusReadReportsTheState
  exact fun s hp => ⟨s.statusReport, exec_statusRead s, State.isReport_statusReport_of_load hp rfl⟩

/-- Settles O18: `takeRead_other`. -/
theorem readOfOtherReportsIsEmpty : Obligations.ReadOfOtherReportsIsEmpty := by
  unfold Obligations.ReadOfOtherReportsIsEmpty
  exact fun id s hid => takeRead_other hid s

/-- The report does not depend on the answers already given (R70). -/
@[simp] theorem State.statusReport_answer (a : List Byte) (s : State) :
    (s.answer a).statusReport = s.statusReport := rfl

/-- Settles O19: the second report is the first, by `State.statusReport_answer`. -/
theorem statusReadIsRepeatable : Obligations.StatusReadIsRepeatable := by
  unfold Obligations.StatusReadIsRepeatable
  intro s t u ht hu
  rw [exec_statusRead] at ht
  obtain rfl := Host.Outcome.next.inj ht
  rw [exec_statusRead, State.statusReport_answer] at hu
  obtain rfl := Host.Outcome.next.inj hu
  exact ⟨s.statusReport, rfl, rfl⟩

/-- Settles O20: the fields that `exec_frame` leaves. -/
theorem instructionsLeaveTheAccumulator : Obligations.InstructionsLeaveTheAccumulator := by
  unfold Obligations.InstructionsLeaveTheAccumulator
  intro i s t h
  obtain ⟨_, _, _, _, _, _, _, _, _, _, rfl⟩ := exec_frame h
  exact ⟨fun _ => rfl, rfl, rfl, rfl, rfl, rfl, rfl, rfl, rfl, rfl, rfl, rfl, rfl, rfl⟩

/-- A read whose id decodes runs the instruction (R67). -/
theorem takeRead_of_decode {id : Byte} {s : State} {i : Instr} {rest : List Byte}
    (h : decode s.params .status [id] = .ok (i, rest)) : takeRead id s = exec i s := by
  rw [takeRead, h]

/-- Settles O29: the event is a read (`step_of_event`), and its id decodes. -/
theorem stepRunsTheDecodedRead : Obligations.StepRunsTheDecodedRead := by
  unfold Obligations.StepRunsTheDecodedRead
  intro id rest es i s hr hb hq hd
  rw [step_of_event hr hb hq]
  exact takeRead_of_decode hd

end Sys2Proof.Machine

/-! ## A report written in chunks (R51 to R54, R56) -/

namespace Sys2Proof.Machine

/-! ### Events one after another -/

theorem takeEvents_append (es fs : List HostEvent) (s : State) :
    takeEvents (es ++ fs) s = andThen (takeEvents es s) (takeEvents fs) := by
  induction es generalizing s with
  | nil => rfl
  | cons e es ih =>
    rw [List.cons_append, takeEvents, takeEvents]
    cases takeEvent e s with
    | next t => exact ih t
    | fault r => rfl
    | refused r => rfl

/-! ### Two chunks are one -/

@[simp] theorem State.append_nil (s : State) : s.append [] = s := rfl

theorem State.append_append (as bs : List Byte) (s : State) :
    (s.append as).append bs = s.append (as ++ bs) := by
  simp [State.append, Memory.storeAll_append, Nat.add_assoc]

/-- Where no room is left a chunk is dropped (R55). -/
theorem takeData_of_full {s : State} (h : s.receiveSize ≤ s.receiveOffset) (bs : List Byte) :
    takeData bs s = .next s :=
  takeData_of_none (by rw [State.acceptCount, Nat.sub_eq_zero_of_le h, Nat.min_zero])

/-- A chunk that fits is accepted whole (R53). -/
theorem State.acceptCount_of_fits {s : State} {bs : List Byte} (h : s.receiveOffset + bs.length ≤ s.receiveSize) :
    s.acceptCount bs = bs.length :=
  Nat.min_eq_left (by omega)

/-- A chunk that leaves the frame incomplete is appended (R53). -/
theorem takeData_of_lt {s : State} {bs : List Byte} (hsize : s.receiveSize ≤ rxbufLen)
    (h : s.receiveOffset + bs.length < s.receiveSize) : takeData bs s = .next (s.append bs) := by
  have hall : s.acceptCount bs = bs.length := State.acceptCount_of_fits (by omega)
  cases bs with
  | nil => exact takeData_of_none hall
  | cons b bs =>
    rw [takeData_of_part (by rw [hall]; exact Nat.succ_pos _) (by omega) (by omega), hall, List.take_length]

/-- A chunk that reaches the frame's end dispatches it; what is beyond is dropped (R53, R54). -/
theorem takeData_of_reaches {s : State} {bs : List Byte} (hsize : s.receiveSize ≤ rxbufLen)
    (hroom : s.receiveOffset < s.receiveSize) (h : s.receiveSize ≤ s.receiveOffset + bs.length) :
    takeData bs s = dispatchFrame (s.append (bs.take (s.receiveSize - s.receiveOffset))) := by
  have hclamp : s.acceptCount bs = s.receiveSize - s.receiveOffset := Nat.min_eq_right (by omega)
  rw [takeData_of_complete (by omega) (by omega) (by omega), hclamp]

/-- Data that comes after a dispatch is dropped, since the frame stays complete (R55, R65). -/
theorem andThen_dispatchFrame_takeData {s : State} (h : s.receiveSize ≤ s.receiveOffset) (bs : List Byte) :
    andThen (dispatchFrame s) (takeData bs) = dispatchFrame s := by
  cases hd : dispatchFrame s with
  | next t =>
    obtain ⟨-, -, hoffset, hsize⟩ := dispatchFrame_keeps hd
    exact takeData_of_full (by rw [hoffset, hsize]; exact h) bs
  | fault r => rfl
  | refused r => rfl

/-- Two chunks are taken as their bytes in one (R56). -/
theorem andThen_takeData_takeData {s : State} (hsize : s.receiveSize ≤ rxbufLen) (as bs : List Byte) :
    andThen (takeData as s) (takeData bs) = takeData (as ++ bs) s := by
  have hlen : (as ++ bs).length = as.length + bs.length := List.length_append
  have hoffset : (s.append as).receiveOffset = s.receiveOffset + as.length := s.append_receiveOffset as
  have hsize' : (s.append as).receiveSize = s.receiveSize := s.append_receiveSize as
  rcases Nat.lt_or_ge s.receiveOffset s.receiveSize with hroom | hfull
  · rcases Nat.lt_or_ge (s.receiveOffset + as.length) s.receiveSize with hpart | hreach
    · rw [takeData_of_lt hsize hpart, andThen_next]
      rcases Nat.lt_or_ge (s.receiveOffset + (as ++ bs).length) s.receiveSize with hpart' | hreach'
      · rw [takeData_of_lt hsize hpart', takeData_of_lt (by omega) (by omega), State.append_append]
      · have hrest : (as ++ bs).take (s.receiveSize - s.receiveOffset)
            = as ++ bs.take (s.receiveSize - (s.receiveOffset + as.length)) := by
          rw [List.take_append, List.take_of_length_le (by omega), Nat.sub_add_eq]
        rw [takeData_of_reaches hsize hroom hreach', takeData_of_reaches (by omega) (by omega) (by omega),
          State.append_append, hrest, hoffset, hsize']
    · have htake : (as ++ bs).take (s.receiveSize - s.receiveOffset) = as.take (s.receiveSize - s.receiveOffset) :=
        List.take_append_of_le_length (by omega)
      rw [takeData_of_reaches hsize hroom hreach, takeData_of_reaches hsize hroom (by omega), htake]
      refine andThen_dispatchFrame_takeData ?_ bs
      rw [State.append_receiveOffset, State.append_receiveSize, List.length_take]
      omega
  · rw [takeData_of_full hfull, takeData_of_full hfull, andThen_next, takeData_of_full hfull]

/-- What a chunk that does not stop leaves of the frame size. -/
theorem takeData_receiveSize {bs : List Byte} {s t : State} (h : takeData bs s = .next t) :
    t.receiveSize = s.receiveSize := by
  rcases takeData_cases h with ⟨-, rfl⟩ | ⟨-, -, -, rfl⟩ | ⟨-, -, -, hd⟩
  · rfl
  · rfl
  · obtain ⟨-, -, -, hsize⟩ := dispatchFrame_keeps hd
    exact hsize

/-- However data is cut into chunks, they are taken as their bytes in one (R56). -/
theorem takeEvents_data (chunks : List (List Byte)) {s : State} (hsize : s.receiveSize ≤ rxbufLen) :
    takeEvents (chunks.map .data) s = takeData chunks.flatten s := by
  induction chunks generalizing s with
  | nil => exact (takeData_of_none (Nat.zero_min _)).symm
  | cons c cs ih =>
    rw [List.flatten_cons, ← andThen_takeData_takeData hsize, List.map_cons, takeEvents, takeEvent]
    cases hc : takeData c s with
    | next t => exact ih (takeData_receiveSize hc ▸ hsize)
    | fault r => rfl
    | refused r => rfl

/-! ### A whole report -/

/-- `bs` is as long as a report of this id has to be (R30, R31). -/
def IsWholeReport (id : Byte) (bs : List Byte) : Prop :=
  (id = reportSingleId ∧ bs.length = rxSizeSingle) ∨ (id = reportBatchId ∧ bs.length = rxSizeBatch)

theorem IsWholeReport.length_bounds {id : Byte} {bs : List Byte} (h : IsWholeReport id bs) :
    0 < bs.length ∧ bs.length ≤ rxbufLen := by
  rcases h with ⟨-, hlen⟩ | ⟨-, hlen⟩ <;> rw [hlen] <;> decide

/-- The state in which the report `bs`, written from its command start on, is complete. -/
def State.withReport (id : Byte) (bs : List Byte) (s : State) : State := (s.startWrite id).append bs

@[simp] theorem State.withReport_params (id : Byte) (bs : List Byte) (s : State) :
    (s.withReport id bs).params = s.params := rfl
@[simp] theorem State.withReport_lineReset (id : Byte) (bs : List Byte) (s : State) :
    (s.withReport id bs).lineReset = s.lineReset := rfl
@[simp] theorem State.withReport_reply (id : Byte) (bs : List Byte) (s : State) :
    (s.withReport id bs).reply = s.reply := rfl
@[simp] theorem State.withReport_trace (id : Byte) (bs : List Byte) (s : State) :
    (s.withReport id bs).trace = s.trace := rfl
@[simp] theorem State.withReport_answers (id : Byte) (bs : List Byte) (s : State) :
    (s.withReport id bs).answers = s.answers := rfl

/-- The command start sets the size of the report it starts (R52). -/
theorem IsWholeReport.startWrite_receiveSize {id : Byte} {bs : List Byte} (h : IsWholeReport id bs) (s : State) :
    (s.startWrite id).receiveSize = bs.length := by
  rcases h with ⟨rfl, hlen⟩ | ⟨rfl, hlen⟩
  · rw [hlen, State.startWrite_single_receiveSize]
  · rw [hlen, State.startWrite_batch_receiveSize]

theorem IsWholeReport.exists_frameFormat {id : Byte} {bs : List Byte} (h : IsWholeReport id bs) (s : State) :
    ∃ f, (s.withReport id bs).frameFormat = some f := by
  have hsize : (s.withReport id bs).receiveSize = bs.length := h.startWrite_receiveSize s
  rcases h with ⟨-, hlen⟩ | ⟨-, hlen⟩
  · exact ⟨.single, State.frameFormat_single (hsize.trans hlen)⟩
  · exact ⟨.batch, State.frameFormat_batch (hsize.trans hlen)⟩

/-- A complete report stands in the buffer (R53). -/
theorem IsWholeReport.load_withReport {id : Byte} {bs : List Byte} (h : IsWholeReport id bs) {s : State}
    (hm : s.rxbuf.wf = true) {k : Nat} {v : Byte} (hv : bs[k]? = some v) :
    (s.withReport id bs).rxbuf.load k = v := by
  obtain ⟨-, hbuf⟩ := h.length_bounds
  obtain ⟨hk, rfl⟩ := List.getElem?_eq_some_iff.mp hv
  have hload := Memory.load_storeAll_range (m := s.rxbuf) (i := 0) bs k hm (by omega)
  rw [if_pos ⟨Nat.zero_le k, by omega⟩, Nat.sub_zero, List.getD_eq_getElem _ _ hk] at hload
  exact hload

/-- A write of a whole report in any chunks dispatches its bytes (R52 to R54, R56). -/
theorem takeEvents_writeReport {id : Byte} {chunks : List (List Byte)} (h : IsWholeReport id chunks.flatten)
    (s : State) : takeEvents (writeReport id chunks) s = dispatchFrame (s.withReport id chunks.flatten) := by
  obtain ⟨hpos, hbuf⟩ := h.length_bounds
  have hsize := h.startWrite_receiveSize s
  have hoffset := s.startWrite_receiveOffset id
  rw [writeReport, takeEvents, takeEvent, andThen_next, takeEvents_data chunks (by omega),
    takeData_of_reaches (by omega) (by omega) (by omega), hsize, hoffset, Nat.sub_zero, List.take_length,
    State.withReport]

/-- A report written and then report 1 read: the answer reports the state the dispatch left, beside the sequence byte
written (R65, R67). -/
theorem takeEvents_writeReport_hostStatus {id q : Byte} {chunks : List (List Byte)} {s t : State} (hs : s.Inv)
    (h : IsWholeReport id chunks.flatten) (hq : chunks.flatten[1]? = some q)
    (hd : dispatchFrame (s.withReport id chunks.flatten) = .next t) :
    ∃ a, takeEvents (writeReport id chunks ++ hostStatus) s = .next (t.answer a)
      ∧ IsReport s.params (statusOfLine s.params t.lineReset) q t.reply a := by
  obtain ⟨hparams, hrxbuf, -⟩ := dispatchFrame_keeps hd
  rw [State.withReport_params] at hparams
  have hseq : t.rxbuf.load 1 = q := hrxbuf ▸ h.load_withReport hs.rxbuf hq
  refine ⟨t.statusReport, ?_, hparams ▸ State.isReport_statusReport_of_load (hparams ▸ hs.params) hseq⟩
  rw [takeEvents_append, takeEvents_writeReport h, hd]
  rfl

/-! ### The dispatch of a complete frame in one step -/

/-- A dispatch in one step (R59; assumption 5). -/
theorem dispatchInstr_of_whole {i : Instr} {s t : State} (hw : s.phased = false)
    (h : exec i (s.setBusy true) = .next t) : dispatchInstr i s = .next (t.setBusy false) := by
  rw [dispatchInstr, hw, Bool.false_and, if_neg Bool.false_ne_true, dispatchWhole, h, andThen_next]

/-- A single frame with the ISP_COMMAND opcode performs the one transaction of its payload and stores the reply
(R61). -/
theorem dispatchFrame_ispCommand {s : State} (hp : s.params.wf = true) (hw : s.phased = false)
    (hsize : s.receiveSize = rxSizeSingle) (hopc : s.rxbuf.load 2 = s.params.opcIspCommand) {c : Quad}
    (hc : ⟨s.rxbuf.load 3, s.rxbuf.load 4, s.rxbuf.load 5, s.rxbuf.load 6⟩ = c) :
    ∃ ss, s.Presents 32 ss ∧ dispatchFrame s = .next { s with
      lineDataOut := c.b3.getLsbD 0, lineClock := false, rsr := (responseOf ss).b3, resp := responseOf ss,
      reply := responseOf ss, trace := (traceOf c ss).reverse ++ s.trace, targetIn := s.targetIn.drop 32,
      draws := s.draws + 32, busy := false } := by
  have hexec := exec_ispCommandS (s.rxbuf.load 0) (s.rxbuf.load 1) c (s.setBusy true)
  rw [State.issueAndStore_eq] at hexec
  refine ⟨(s.setBusy true).quadLevels c, (s.setBusy true).presents_quadLevels c, ?_⟩
  rw [dispatchFrame_single hsize, decodeSingle, if_neg (hopc ▸ (Params.wf_opcodes hp).symm), if_pos hopc, hc,
    dispatchInstr_of_whole hw hexec]
  rfl

theorem exec_unknownS (r q o x0 x1 x2 x3 : Byte) (s : State) : exec (.unknownS r q o x0 x1 x2 x3) s = .next s := rfl

theorem exec_unknownB (r q o x : Byte) (body : List Byte) (s : State) :
    exec (.unknownB r q o x body) s = .next s := rfl

/-- A complete frame of either size with an unknown opcode does nothing (R63, decision D11). -/
theorem exec_frameInstr_of_unknown {s : State} (hreset : s.rxbuf.load 2 ≠ s.params.opcResetDevice)
    (hisp : s.rxbuf.load 2 ≠ s.params.opcIspCommand) (t : State) : exec s.frameInstr t = .next t := by
  unfold State.frameInstr
  split
  · rw [decodeSingle, if_neg hreset, if_neg hisp, exec_unknownS]
  · rw [decodeBatch, if_neg hreset, if_neg hisp, exec_unknownB]

/-- The dispatch of a frame with an unknown opcode only ends with `busy` clear (R59, R63). -/
theorem dispatchFrame_unknown {s : State} {f : Format} (hf : s.frameFormat = some f) (hw : s.phased = false)
    (hreset : s.rxbuf.load 2 ≠ s.params.opcResetDevice) (hisp : s.rxbuf.load 2 ≠ s.params.opcIspCommand) :
    dispatchFrame s = .next ((s.setBusy true).setBusy false) := by
  rw [dispatchFrame_eq hf]
  exact dispatchInstr_of_whole hw (exec_frameInstr_of_unknown hreset hisp _)

/-! ### What the host relies on (R63, R71) -/

/-- Settles O43: the write dispatches its frame (`takeEvents_writeReport_hostStatus`), which performs the transaction
(`dispatchFrame_ispCommand`), and the answer is the report of the state this leaves. -/
theorem hostRoundTrip : Obligations.HostRoundTrip := by
  unfold Obligations.HostRoundTrip
  intro q c chunks s hs hbs
  have hreport : IsWholeReport reportSingleId chunks.flatten := .inl ⟨rfl, by rw [hbs]; rfl⟩
  have hbyte : ∀ k v, [0x02, q, s.params.opcIspCommand, c.b0, c.b1, c.b2, c.b3][k]? = some v →
      (s.withReport reportSingleId chunks.flatten).rxbuf.load k = v :=
    fun k v hv => hreport.load_withReport hs.inv.rxbuf (hbs ▸ hv)
  obtain ⟨ss, hpresents, hd⟩ := dispatchFrame_ispCommand (s := s.withReport reportSingleId chunks.flatten) (c := c)
    hs.inv.params hs.whole s.startWrite_single_receiveSize (hbyte 2 _ rfl)
    (by rw [hbyte 3 _ rfl, hbyte 4 _ rfl, hbyte 5 _ rfl, hbyte 6 _ rfl])
  obtain ⟨a, hevents, hanswer⟩ := takeEvents_writeReport_hostStatus hs.inv hreport (by rw [hbs]; rfl) hd
  exact ⟨ss, _, a, hevents, hpresents, by simp [State.lineEvents], by simp, by simpa using hanswer⟩

/-- Settles O44: the write dispatches its frame (`takeEvents_writeReport_hostStatus`), which does nothing
(`dispatchFrame_unknown`), and the answer is the report of the state this leaves. -/
theorem unknownFrameIsEchoed : Obligations.UnknownFrameIsEchoed := by
  unfold Obligations.UnknownFrameIsEchoed
  rintro id q o _ chunks s hs hlen rfl hq ho hreset hisp
  have hreport : IsWholeReport id chunks.flatten := hlen
  obtain ⟨f, hf⟩ := hreport.exists_frameFormat s
  have hopc := hreport.load_withReport hs.inv.rxbuf ho
  have hd := dispatchFrame_unknown hf hs.whole (hopc ▸ hreset) (hopc ▸ hisp)
  obtain ⟨a, hevents, hanswer⟩ := takeEvents_writeReport_hostStatus hs.inv hreport hq hd
  exact ⟨_, a, hevents, by simp [State.lineEvents], by simp, by simp, by simp, by simpa using hanswer⟩

end Sys2Proof.Machine

/-! ## Encoding and decoding (R30 to R33, R37) -/

namespace Sys2Proof.Machine

/-! ### What the opcode byte selects (R37) -/

theorem unknownOpcode_iff {p : Params} {o : Byte} :
    unknownOpcode p o = true ↔ o ≠ p.opcResetDevice ∧ o ≠ p.opcIspCommand := by
  simp [unknownOpcode]

theorem fullBody_iff {body : List Byte} : fullBody body = true ↔ body.length = batchBodyLen := beq_iff_eq

theorem decodeSingle_resetDevice (p : Params) (r q a b c d : Byte) :
    decodeSingle p r q p.opcResetDevice a b c d = .resetDeviceS r q a b c d := if_pos rfl

theorem decodeSingle_ispCommand {p : Params} (hp : p.wf = true) (r q a b c d : Byte) :
    decodeSingle p r q p.opcIspCommand a b c d = .ispCommandS r q ⟨a, b, c, d⟩ := by
  rw [decodeSingle, if_neg (Params.wf_opcodes hp).symm, if_pos rfl]

theorem decodeSingle_unknown {p : Params} {o : Byte} (ho : unknownOpcode p o = true) (r q a b c d : Byte) :
    decodeSingle p r q o a b c d = .unknownS r q o a b c d := by
  obtain ⟨hreset, hisp⟩ := unknownOpcode_iff.mp ho
  rw [decodeSingle, if_neg hreset, if_neg hisp]

theorem decodeBatch_resetDevice (p : Params) (r q n : Byte) (body : List Byte) :
    decodeBatch p r q p.opcResetDevice n body = .resetDeviceB r q n body := if_pos rfl

theorem decodeBatch_ispCommand {p : Params} (hp : p.wf = true) (r q n : Byte) (body : List Byte) :
    decodeBatch p r q p.opcIspCommand n body = .ispCommandB r q n body := by
  rw [decodeBatch, if_neg (Params.wf_opcodes hp).symm, if_pos rfl]

theorem decodeBatch_unknown {p : Params} {o : Byte} (ho : unknownOpcode p o = true) (r q n : Byte)
    (body : List Byte) : decodeBatch p r q o n body = .unknownB r q o n body := by
  obtain ⟨hreset, hisp⟩ := unknownOpcode_iff.mp ho
  rw [decodeBatch, if_neg hreset, if_neg hisp]

/-! ### Decoding an encoding -/

theorem decode_single_append (p : Params) (r q o a b c d : Byte) (rest : List Byte) :
    decode p .single ([r, q, o, a, b, c, d] ++ rest) = .ok (decodeSingle p r q o a b c d, rest) := rfl

/-- A batch frame ends with its body's last byte (R31). -/
theorem decode_batch_append (p : Params) (r q o n : Byte) {body : List Byte} (hbody : fullBody body = true)
    (rest : List Byte) :
    decode p .batch (r :: q :: o :: n :: body ++ rest) = .ok (decodeBatch p r q o n body, rest) := by
  have hlen : body.length = batchBodyLen := fullBody_iff.mp hbody
  have hfits : batchBodyLen ≤ (body ++ rest).length := by rw [List.length_append]; omega
  simp only [List.cons_append, decode, if_pos hfits, take_append_exact rest hlen, drop_append_exact rest hlen]

/-- Settles O1: constructor by constructor, the layout's decoder selects the constructor by the opcode byte encoded. -/
theorem decodeOfEncodeIsTheInstruction : Obligations.DecodeOfEncodeIsTheInstruction := by
  unfold Obligations.DecodeOfEncodeIsTheInstruction
  intro p i rest hp hi
  cases i with
  | resetDeviceS r q f x1 x2 x3 =>
    rw [Instr.format, encode, decode_single_append, decodeSingle_resetDevice]
  | resetDeviceB r q f body =>
    rw [Instr.format, encode, decode_batch_append p r q _ f hi, decodeBatch_resetDevice]
  | ispCommandS r q c =>
    rw [Instr.format, encode, decode_single_append, decodeSingle_ispCommand hp]
  | ispCommandB r q n body =>
    rw [Instr.format, encode, decode_batch_append p r q _ n hi, decodeBatch_ispCommand hp]
  | unknownS r q o x0 x1 x2 x3 =>
    rw [Instr.format, encode, decode_single_append, decodeSingle_unknown hi]
  | unknownB r q o x body =>
    obtain ⟨ho, hbody⟩ := Bool.and_eq_true_iff.mp hi
    rw [Instr.format, encode, decode_batch_append p r q o x hbody, decodeBatch_unknown ho]
  | statusRead => rfl
  | ispTransaction c => rfl

/-! ### Encoding what was decoded -/

/-- The instruction `i` is one of the layout `f`, and its bytes are `bs`. -/
def IsEncoded (p : Params) (f : Format) (bs : List Byte) (i : Instr) : Prop :=
  i.format = f ∧ i.wf p = true ∧ encode p i = bs

/-- Seven bytes are the encoding of the operation they select: the opcode byte is kept in each of the three cases. -/
theorem isEncoded_decodeSingle (p : Params) (r q o a b c d : Byte) :
    IsEncoded p .single [r, q, o, a, b, c, d] (decodeSingle p r q o a b c d) := by
  by_cases hreset : o = p.opcResetDevice
  · subst hreset
    rw [decodeSingle_resetDevice]
    exact ⟨rfl, rfl, rfl⟩
  by_cases hisp : o = p.opcIspCommand
  · rw [decodeSingle, if_neg hreset, if_pos hisp, hisp]
    exact ⟨rfl, rfl, rfl⟩
  · have ho := unknownOpcode_iff.mpr ⟨hreset, hisp⟩
    rw [decodeSingle_unknown ho]
    exact ⟨rfl, ho, rfl⟩

/-- The bytes of a batch frame are the encoding of the operation they select. -/
theorem isEncoded_decodeBatch (p : Params) (r q o n : Byte) {body : List Byte} (hbody : fullBody body = true) :
    IsEncoded p .batch (r :: q :: o :: n :: body) (decodeBatch p r q o n body) := by
  by_cases hreset : o = p.opcResetDevice
  · subst hreset
    rw [decodeBatch_resetDevice]
    exact ⟨rfl, hbody, rfl⟩
  by_cases hisp : o = p.opcIspCommand
  · rw [decodeBatch, if_neg hreset, if_pos hisp, hisp]
    exact ⟨rfl, hbody, rfl⟩
  · have ho := unknownOpcode_iff.mpr ⟨hreset, hisp⟩
    rw [decodeBatch_unknown ho]
    exact ⟨rfl, Bool.and_eq_true_iff.mpr ⟨ho, hbody⟩, rfl⟩

/-- What decodes to `i` starts with the bytes of `i`: the bytes are split as the layout splits them. -/
theorem isEncoded_of_decode {p : Params} {f : Format} {bs rest : List Byte} {i : Instr}
    (h : decode p f bs = .ok (i, rest)) : ∃ front, bs = front ++ rest ∧ IsEncoded p f front i := by
  cases f with
  | single =>
    match bs, h with
    | r :: q :: o :: a :: b :: c :: d :: _, h =>
      cases h
      exact ⟨_, rfl, isEncoded_decodeSingle p r q o a b c d⟩
  | batch =>
    match bs, h with
    | r :: q :: o :: n :: tail, h =>
      rw [decode] at h
      split at h
      · rename_i hfits
        cases h
        have hbody : fullBody (tail.take batchBodyLen) = true := fullBody_iff.mpr (List.length_take_of_le hfits)
        exact ⟨_, by simp, isEncoded_decodeBatch p r q o n hbody⟩
      · cases h
  | status =>
    match bs, h with
    | id :: _, h =>
      rw [decode] at h
      split at h
      · rename_i hid
        cases h
        exact ⟨_, rfl, rfl, rfl, congrArg ([·]) hid.symm⟩
      · cases h
  | serial =>
    match bs, h with
    | a :: b :: c :: d :: _, h =>
      cases h
      exact ⟨_, rfl, rfl, rfl, rfl⟩

/-- Settles O2: `isEncoded_of_decode`. -/
theorem encodeOfDecodeIsTheBytes : Obligations.EncodeOfDecodeIsTheBytes := by
  unfold Obligations.EncodeOfDecodeIsTheBytes
  intro p f bs rest i h
  obtain ⟨front, hbs, hformat, hwf, hfront⟩ := isEncoded_of_decode h
  exact ⟨hformat, hwf, by rw [hfront, hbs]⟩

/-- Settles O5: the decoder run on each of the eight numbers. -/
theorem framesOfTheVectorsDecode : Obligations.FramesOfTheVectorsDecode := by
  unfold Obligations.FramesOfTheVectorsDecode
  decide +kernel

end Sys2Proof.Machine

/-! ## The invariant (R14) -/

namespace Sys2Proof.Machine

/-! ### The frame part of the invariant: what holds in a dispatch and outside one -/

/-- The parameters and the receive buffer with its registers are legal (R3, R9 to R11). -/
structure State.LegalFrame (s : State) : Prop where
  params : s.params.wf = true
  rxbuf : s.rxbuf.wf = true
  size : s.receiveSize = 0 ∨ s.receiveSize = rxSizeSingle ∨ s.receiveSize = rxSizeBatch
  offset : s.receiveOffset ≤ s.receiveSize

/-- The parameters, the receive buffer and its registers of `t` are those of `s`. -/
def State.SameFrame (s t : State) : Prop :=
  t.params = s.params ∧ t.rxbuf = s.rxbuf ∧ t.receiveOffset = s.receiveOffset ∧ t.receiveSize = s.receiveSize

theorem State.Inv.legalFrame {s : State} (h : s.Inv) : s.LegalFrame := ⟨h.params, h.rxbuf, h.size, h.offset⟩

theorem State.LegalFrame.of_sameFrame {s t : State} (h : s.LegalFrame) (hst : s.SameFrame t) : t.LegalFrame := by
  obtain ⟨hparams, hrxbuf, hoffset, hsize⟩ := hst
  exact ⟨hparams ▸ h.params, hrxbuf ▸ h.rxbuf, hsize ▸ h.size, hoffset ▸ hsize ▸ h.offset⟩

theorem State.LegalFrame.startWrite {s : State} (h : s.LegalFrame) (id : Byte) : (s.startWrite id).LegalFrame where
  params := h.params
  rxbuf := h.rxbuf
  size := by
    rw [State.startWrite_receiveSize]
    split
    · exact .inr (.inl rfl)
    · split
      · exact .inr (.inr rfl)
      · exact .inl rfl
  offset := Nat.zero_le _

/-- The clamped bytes of a chunk keep the frame legal (R53). -/
theorem State.Inv.legalFrame_append {s : State} (h : s.Inv) (bs : List Byte) :
    (s.append (bs.take (s.acceptCount bs))).LegalFrame where
  params := h.params
  rxbuf := Memory.wf_storeAll _ h.rxbuf (by
    rw [s.length_take_acceptCount]
    exact (h.offset_add_acceptCount_le bs).trans h.receiveSize_le)
  size := h.size
  offset := by
    rw [State.append_receiveOffset, s.length_take_acceptCount]
    exact h.offset_add_acceptCount_le bs

/-- A legal frame size other than 0 is that of a layout (R11). -/
theorem State.LegalFrame.exists_frameFormat {s : State} (h : s.LegalFrame) (hsize : s.receiveSize ≠ 0) :
    ∃ f, s.frameFormat = some f := by
  rcases h.size with h0 | h7 | h133
  · exact absurd h0 hsize
  · exact ⟨_, State.frameFormat_single h7⟩
  · exact ⟨_, State.frameFormat_batch h133⟩

/-! ### Legal states outside and inside a dispatch -/

/-- The sequencing state is idle, and `CLOCK` low: what holds outside a dispatch (R14, R17; assumption 7). -/
def State.Idle (s : State) : Prop := s.lineClock = false ∧ s.atTransactionStart = true ∧ s.txnIdx = 0

theorem State.Inv.isIdle {s : State} (h : s.Inv) (hb : s.busy = false) : s.Idle := ⟨h.quiet hb, h.idle hb⟩

theorem State.atTransactionStart_iff {s : State} :
    s.atTransactionStart = true ↔ s.byteIdx = 0 ∧ s.bitIdx = 7 ∧ s.phase = .driveData ∧ s.waitCnt = 0 := by
  simp [State.atTransactionStart, and_assoc]

theorem State.Inv.of_idle {s : State} (hf : s.LegalFrame) (hb : s.busy = false) (hi : s.Idle) : s.Inv := by
  obtain ⟨hclock, hstart, hidx⟩ := hi
  obtain ⟨-, -, -, hwait⟩ := State.atTransactionStart_iff.mp hstart
  have hbusy : s.busy ≠ true := by rw [hb]; decide
  exact {
    params := hf.params, rxbuf := hf.rxbuf, size := hf.size, offset := hf.offset
    quiet := fun _ => hclock
    idle := fun _ => ⟨hstart, hidx⟩
    frame := fun h => absurd h hbusy
    clock := fun h => absurd h hbusy
    wait := ⟨hwait ▸ Params.wf_settleCycles hf.params, fun _ => hwait⟩ }

/-- A step inside a dispatch that stays at a transaction of the same frame, `CLOCK` and `waitCnt` following the phase,
ends in a legal state. -/
theorem State.Inv.of_busy {s t : State} (h : s.Inv) (hs : s.busy = true) (hst : s.SameFrame t) (hb : t.busy = true)
    (hidx : t.txnIdx.val < s.transactionTotal) (hclock : t.lineClock = t.phase.clockHigh)
    (hwait : t.waitCnt < s.params.settleCycles ∧ (t.phase.isSettle = false → t.waitCnt = 0)) : t.Inv := by
  have hf := h.legalFrame.of_sameFrame hst
  obtain ⟨hparams, hrxbuf, hoffset, hsize⟩ := hst
  obtain ⟨hfull, hne, hopc, -⟩ := h.frame hs
  have hbusy : t.busy ≠ false := by rw [hb]; decide
  have htotal : t.transactionTotal = s.transactionTotal := by
    rw [State.transactionTotal, State.transactionTotal, hsize, hrxbuf]
  exact {
    params := hf.params, rxbuf := hf.rxbuf, size := hf.size, offset := hf.offset
    quiet := fun h => absurd h hbusy
    idle := fun h => absurd h hbusy
    frame := fun _ => ⟨by rw [hoffset, hsize, hfull], by rw [hsize]; exact hne,
      by rw [hrxbuf, hparams]; exact hopc, by rw [htotal]; exact hidx⟩
    clock := fun _ => hclock
    wait := by rw [hparams]; exact hwait }

/-! ### Reset -/

/-- The hardware reset leaves a legal state, whatever it abandons (R81). -/
theorem State.hardReset_inv {s : State} (hp : s.params.wf = true) : s.hardReset.Inv :=
  .of_idle ⟨hp, rfl, .inl rfl, Nat.le_refl 0⟩ rfl ⟨rfl, rfl, rfl⟩

/-- Settles O35: the reset state is what the hardware reset leaves of it. -/
theorem resetMeetsTheInvariant : Obligations.ResetMeetsTheInvariant := by
  unfold Obligations.ResetMeetsTheInvariant
  exact State.hardReset_inv (s := State.reset) defaultParams_wf

/-! ### The dispatch of a frame -/

theorem transactionCount_decodeSingle (p : Params) (r q o a b c d : Byte) :
    transactionCount (decodeSingle p r q o a b c d)
      = if o = p.opcResetDevice then 0 else if o = p.opcIspCommand then 1 else 0 := by
  unfold decodeSingle
  split
  · rfl
  · split <;> rfl

theorem transactionCount_decodeBatch (p : Params) (r q o n : Byte) (body : List Byte) :
    transactionCount (decodeBatch p r q o n body)
      = if o = p.opcResetDevice then 0 else if o = p.opcIspCommand then batchCount n else 0 := by
  unfold decodeBatch
  split
  · rfl
  · split <;> rfl

/-- A frame performs `transactionTotal` transactions if it is an ISP_COMMAND, else none (R60 to R63). -/
theorem transactionCount_frameInstr (s : State) :
    transactionCount s.frameInstr
      = if s.rxbuf.load 2 = s.params.opcResetDevice then 0
        else if s.rxbuf.load 2 = s.params.opcIspCommand then s.transactionTotal else 0 := by
  unfold State.frameInstr State.transactionTotal
  split
  · exact transactionCount_decodeSingle ..
  · exact transactionCount_decodeBatch ..

/-- A frame with a transaction is an ISP_COMMAND, and performs `transactionTotal` of them (R61, R62). -/
theorem State.of_transactionCount_pos {s : State} (h : 0 < transactionCount s.frameInstr) :
    s.rxbuf.load 2 = s.params.opcIspCommand ∧ transactionCount s.frameInstr = s.transactionTotal := by
  have hcount := transactionCount_frameInstr s
  by_cases hreset : s.rxbuf.load 2 = s.params.opcResetDevice
  · rw [if_pos hreset] at hcount; omega
  by_cases hisp : s.rxbuf.load 2 = s.params.opcIspCommand
  · rw [if_neg hreset, if_pos hisp] at hcount
    exact ⟨hisp, hcount⟩
  · rw [if_neg hreset, if_neg hisp] at hcount; omega

/-- Entering the dispatch of a complete frame that has a transaction (R59). -/
theorem State.beginDispatch_inv {s : State} (hf : s.LegalFrame) (hfull : s.receiveOffset = s.receiveSize)
    (hne : s.receiveSize ≠ 0) (hclock : s.lineClock = false) (hn : 0 < transactionCount s.frameInstr) :
    s.beginDispatch.Inv where
  params := hf.params
  rxbuf := hf.rxbuf
  size := hf.size
  offset := hf.offset
  quiet := nofun
  idle := nofun
  frame := fun _ => by
    obtain ⟨hopc, htotal⟩ := State.of_transactionCount_pos hn
    exact ⟨hfull, hne, hopc, htotal ▸ hn⟩
  clock := fun _ => hclock
  wait := ⟨Params.wf_settleCycles hf.params, fun _ => rfl⟩

/-- Every transaction leaves `CLOCK` low; no other instruction touches it (R48). -/
theorem exec_lineClock {i : Instr} {s t : State} (h : exec i s = .next t) (hclock : s.lineClock = false) :
    t.lineClock = false := by
  rcases exec_cases h with ⟨a, rfl, -⟩ | ⟨cs, rfl, -⟩ | ⟨rfl, -⟩ | ⟨-, rfl⟩ | ⟨c, -, rfl⟩
  · rw [State.setReset_lineClock, hclock]
  · rw [State.issueAll_eq]
    exact ite_eq_right_iff.mpr fun _ => hclock
  · exact hclock
  · exact hclock
  · rw [State.issueCommand_eq]

/-- An instruction leaves the sequencing state idle and the frame as it stands (R65). -/
theorem exec_idle {i : Instr} {s t : State} (h : exec i s = .next t) (hi : s.Idle) : t.Idle ∧ s.SameFrame t := by
  have hclock := exec_lineClock h hi.1
  obtain ⟨_, _, _, _, _, _, _, _, _, _, rfl⟩ := exec_frame h
  exact ⟨⟨hclock, hi.2⟩, rfl, rfl, rfl, rfl⟩

/-- The dispatch of a complete frame ends, or stands, in a legal state (R59). -/
theorem dispatchFrame_inv {s t : State} (h : dispatchFrame s = .next t) (hf : s.LegalFrame) (hi : s.Idle)
    (hfull : s.receiveOffset = s.receiveSize) (hne : s.receiveSize ≠ 0) : t.Inv := by
  obtain ⟨_, -, hd⟩ := dispatchFrame_cases h
  rcases dispatchInstr_cases hd with ⟨-, hn, rfl⟩ | ⟨u, hu, rfl⟩
  · exact State.beginDispatch_inv hf hfull hne hi.1 hn
  · obtain ⟨hidle, hsame⟩ := exec_idle hu (s := s.setBusy true) hi
    exact .of_idle (hf.of_sameFrame hsame) rfl hidle

/-! ### Host events -/

theorem takeData_inv {bs : List Byte} {s t : State} (h : takeData bs s = .next t) (hs : s.Inv)
    (hb : s.busy = false) : t.Inv := by
  rcases takeData_cases h with ⟨-, rfl⟩ | ⟨-, -, -, rfl⟩ | ⟨hpos, -, hfull, hd⟩
  · exact hs
  · exact .of_idle (hs.legalFrame_append bs) hb (hs.isIdle hb)
  · have hoffset : (s.append (bs.take (s.acceptCount bs))).receiveOffset = s.receiveSize := by
      rw [State.append_receiveOffset, s.length_take_acceptCount, hfull]
    refine dispatchFrame_inv hd (hs.legalFrame_append bs) (hs.isIdle hb) hoffset ?_
    show s.receiveSize ≠ 0
    omega

theorem takeEvent_inv {e : HostEvent} {s t : State} (h : takeEvent e s = .next t) (hs : s.Inv)
    (hb : s.busy = false) : t.Inv := by
  cases e with
  | startWrite id =>
    cases h
    exact .of_idle (hs.legalFrame.startWrite id) hb (hs.isIdle hb)
  | data bs => exact takeData_inv h hs hb
  | startRead id =>
    obtain ⟨a, ha⟩ := takeRead_cases id s
    cases ha.symm.trans h
    exact .of_idle (hs.legalFrame.of_sameFrame ⟨rfl, rfl, rfl, rfl⟩) hb (hs.isIdle hb)

/-! ### A dispatch in progress -/

/-- The end of a transaction: the next one of the frame, or the end of the dispatch (R13, R62). -/
theorem State.endTransaction_inv {s : State} (h : s.Inv) (hb : s.busy = true) (hstart : s.atTransactionStart = true) :
    s.endTransaction.Inv := by
  obtain ⟨hbyte, hbit, hphase, hwait⟩ := State.atTransactionStart_iff.mp hstart
  have hclock := h.clock hb
  by_cases hmore : s.txnIdx.val + 1 < s.transactionTotal
  · have hnext : (s.txnIdx + 1).val = s.txnIdx.val + 1 := by
      have hle := s.transactionTotal_le
      omega
    rw [State.endTransaction_of_more hmore]
    exact h.of_busy hb ⟨rfl, rfl, rfl, rfl⟩ hb (hnext ▸ hmore) hclock h.wait
  · rw [State.endTransaction_of_last hmore]
    rw [hphase] at hclock
    exact .of_idle (h.legalFrame.of_sameFrame ⟨rfl, rfl, rfl, rfl⟩) rfl ⟨hclock, hstart, rfl⟩

/-- A whole transaction leaves the block at its start, ready for its caller's part (R44). -/
theorem State.issueCommand_inv {s : State} (h : s.Inv) (hb : s.busy = true) (hstart : s.atTransactionStart = true)
    (c : Quad) : (s.issueCommand c).Inv := by
  obtain ⟨-, -, -, hidx⟩ := h.frame hb
  obtain ⟨-, -, hphase, -⟩ := State.atTransactionStart_iff.mp hstart
  rw [State.issueCommand_eq]
  exact h.of_busy hb ⟨rfl, rfl, rfl, rfl⟩ hb hidx (by rw [hphase]; rfl) h.wait

/-- The end of a byte: the next byte, or the end of the transaction (R43, R44). -/
theorem State.endByte_inv {s : State} (h : s.Inv) (hb : s.busy = true) (hbit : s.bitIdx = 7)
    (hphase : s.phase = .driveData) (hwait : s.waitCnt = 0) : s.endByte.Inv := by
  obtain ⟨-, -, -, hidx⟩ := h.frame hb
  unfold State.endByte
  split
  · exact h.of_busy hb ⟨rfl, rfl, rfl, rfl⟩ hb hidx (h.clock hb) h.wait
  · refine State.endTransaction_inv ?_ hb (State.atTransactionStart_iff.mpr ⟨rfl, hbit, hphase, hwait⟩)
    exact h.of_busy hb ⟨rfl, rfl, rfl, rfl⟩ hb hidx (h.clock hb) h.wait

/-- The end of a bit, at its first phase: the next lower bit, or the end of the byte (R43). -/
theorem State.endBit_inv {s : State} (h : s.Inv) (hb : s.busy = true) (hphase : s.phase = .driveData) :
    s.endBit.Inv := by
  obtain ⟨-, -, -, hidx⟩ := h.frame hb
  have hclock := h.clock hb
  have hwait := h.wait
  have hzero : s.waitCnt = 0 := hwait.2 (by rw [hphase]; rfl)
  rw [hphase] at hclock hwait
  unfold State.endBit
  split
  · exact h.of_busy hb ⟨rfl, rfl, rfl, rfl⟩ hb hidx hclock hwait
  · refine State.endByte_inv ?_ hb rfl rfl hzero
    exact h.of_busy hb ⟨rfl, rfl, rfl, rfl⟩ hb hidx hclock hwait

/-- A count of a hold counts on, or ends the hold with the counter back at 0 (R79). -/
theorem State.settleStep_cases (next : Phase) (s : State) : ∃ es : List LineEvent,
    (s.waitCnt + 1 < s.params.settleCycles
      ∧ s.settleStep next = { s with trace := es ++ s.trace, waitCnt := s.waitCnt + 1 })
    ∨ (s.params.settleCycles ≤ s.waitCnt + 1
      ∧ s.settleStep next = { s with trace := es ++ s.trace, waitCnt := 0, phase := next }) := by
  obtain ⟨es, hes⟩ : ∃ es, (if s.waitCnt = 0 then s.wait else s) = { s with trace := es ++ s.trace } := by
    split
    · exact ⟨[.settle], rfl⟩
    · exact ⟨[], rfl⟩
  refine ⟨es, ?_⟩
  rw [State.settleStep, hes]
  by_cases hmore : s.waitCnt + 1 < s.params.settleCycles
  · exact .inl ⟨hmore, if_pos hmore⟩
  · exact .inr ⟨Nat.not_lt.mp hmore, if_neg hmore⟩

/-- A count of a hold keeps a legal state legal, where the phase after it has the same clock
level (R42). -/
theorem State.settleStep_inv {s : State} (h : s.Inv) (hb : s.busy = true) {next : Phase}
    (hsettle : s.phase.isSettle = true) (hlevel : next.clockHigh = s.phase.clockHigh) :
    (s.settleStep next).Inv := by
  obtain ⟨-, -, -, hidx⟩ := h.frame hb
  have hclock := h.clock hb
  obtain ⟨es, ⟨hmore, hs⟩ | ⟨-, hs⟩⟩ := s.settleStep_cases next
  · rw [hs]
    exact h.of_busy hb ⟨rfl, rfl, rfl, rfl⟩ hb hidx hclock
      ⟨hmore, fun hno => absurd (hsettle.symm.trans hno) (by decide)⟩
  · rw [hs]
    exact h.of_busy hb ⟨rfl, rfl, rfl, rfl⟩ hb hidx (hclock.trans hlevel.symm)
      ⟨Params.wf_settleCycles h.params, fun _ => rfl⟩

/-- `endBit` stands at the first phase whatever phase it comes from. -/
theorem State.endBit_phase (s : State) : ({ s with phase := .driveData } : State).endBit = s.endBit := rfl

theorem State.phaseStep_driveData {s : State} (h : s.phase = .driveData) :
    s.phaseStep = { s.setLine .dataOut (s.commandByte.getLsbD s.bitIdx) with phase := .settleLow } := by
  rw [State.phaseStep, h]

theorem State.phaseStep_settleLow {s : State} (h : s.phase = .settleLow) :
    s.phaseStep = s.settleStep .raiseClock := by
  rw [State.phaseStep, h]

theorem State.phaseStep_raiseClock {s : State} (h : s.phase = .raiseClock) :
    s.phaseStep = { s.setLine .clock true with phase := .sample } := by
  rw [State.phaseStep, h]

theorem State.phaseStep_sample {s : State} (h : s.phase = .sample) :
    s.phaseStep = { s.samplePhase with phase := .settleHigh } := by
  rw [State.phaseStep, h]

theorem State.phaseStep_settleHigh {s : State} (h : s.phase = .settleHigh) :
    s.phaseStep = s.settleStep .lowerClock := by
  rw [State.phaseStep, h]

theorem State.phaseStep_lowerClock {s : State} (h : s.phase = .lowerClock) :
    s.phaseStep = (s.setLine .clock false).endBit := by
  rw [State.phaseStep, h]

/-- Each of the six phases of a bit keeps a legal state legal (R42). -/
theorem State.phaseStep_inv {s : State} (h : s.Inv) (hb : s.busy = true) : s.phaseStep.Inv := by
  obtain ⟨-, -, -, hidx⟩ := h.frame hb
  have hclock := h.clock hb
  have hcount : s.phase.isSettle = false → ∀ ph : Phase,
      s.waitCnt < s.params.settleCycles ∧ (ph.isSettle = false → s.waitCnt = 0) :=
    fun hno ph => ⟨h.wait.1, fun _ => h.wait.2 hno⟩
  cases hphase : s.phase <;> rw [hphase] at hclock hcount
  case driveData =>
    rw [State.phaseStep_driveData hphase]
    exact h.of_busy hb ⟨rfl, rfl, rfl, rfl⟩ hb hidx hclock (hcount rfl _)
  case settleLow =>
    rw [State.phaseStep_settleLow hphase]
    exact State.settleStep_inv h hb (hphase ▸ rfl) (hphase ▸ rfl)
  case raiseClock =>
    rw [State.phaseStep_raiseClock hphase]
    exact h.of_busy hb ⟨rfl, rfl, rfl, rfl⟩ hb hidx rfl (hcount rfl _)
  case sample =>
    rw [State.phaseStep_sample hphase]
    exact h.of_busy hb ⟨rfl, rfl, rfl, rfl⟩ hb hidx hclock (hcount rfl _)
  case settleHigh =>
    rw [State.phaseStep_settleHigh hphase]
    exact State.settleStep_inv h hb (hphase ▸ rfl) (hphase ▸ rfl)
  case lowerClock =>
    rw [State.phaseStep_lowerClock hphase, ← State.endBit_phase]
    refine State.endBit_inv ?_ hb rfl
    exact h.of_busy hb ⟨rfl, rfl, rfl, rfl⟩ hb hidx rfl (hcount rfl _)

theorem continueDispatch_inv {s t : State} (h : continueDispatch s = .next t) (hs : s.Inv) (hb : s.busy = true) :
    t.Inv := by
  rcases continueDispatch_cases s with ⟨-, hstart, hc⟩ | hc
  · cases hc.symm.trans h
    have hissue := State.issueCommand_inv hs hb hstart s.transactionQuad
    rw [State.issueCommand_eq] at hissue ⊢
    exact State.endTransaction_inv hissue hb hstart
  · cases hc.symm.trans h
    exact State.phaseStep_inv hs hb

/-! ### Every step (R14) -/

/-- The waiting events are no part of what the invariant speaks of. -/
theorem State.Inv.withQueue {s : State} (h : s.Inv) (es : List HostEvent) :
    ({ s with hostQueue := es } : State).Inv :=
  ⟨h.params, h.rxbuf, h.size, h.offset, h.quiet, h.idle, h.frame, h.clock, h.wait⟩

/-- Settles O34: the cases of a step, each kept by the lemma named after it. -/
theorem everyStepKeepsTheInvariant : Obligations.EveryStepKeepsTheInvariant := by
  unfold Obligations.EveryStepKeepsTheInvariant
  intro s t hs h
  rcases step_cases h with ⟨-, rfl⟩ | ⟨-, hb, hc⟩ | ⟨-, -, -, rfl⟩ | ⟨-, hb, e, es, -, he⟩
  · exact State.hardReset_inv hs.params
  · exact continueDispatch_inv hc hs hb
  · exact hs
  · exact takeEvent_inv he (hs.withQueue es) hb

/-! ### No step stops (R72) -/

/-- The dispatch of a frame of one of the two sizes goes on. -/
theorem dispatchFrame_next {s : State} {f : Format} (hf : s.frameFormat = some f) :
    ∃ t, dispatchFrame s = .next t := by
  rw [dispatchFrame_eq hf]
  exact dispatchInstr_next _ _

theorem takeData_next {s : State} (hs : s.Inv) (bs : List Byte) : ∃ t, takeData bs s = .next t := by
  rw [takeData_eq_append hs]
  split
  · rename_i hcomplete
    have hne : s.receiveSize ≠ 0 := by omega
    obtain ⟨f, hf⟩ := (hs.legalFrame_append bs).exists_frameFormat hne
    exact dispatchFrame_next hf
  · exact ⟨_, rfl⟩

theorem takeEvent_next {s : State} (hs : s.Inv) (e : HostEvent) : ∃ t, takeEvent e s = .next t := by
  cases e with
  | startWrite id => exact ⟨_, rfl⟩
  | data bs => exact takeData_next hs bs
  | startRead id =>
    obtain ⟨a, ha⟩ := takeRead_cases id s
    exact ⟨_, ha⟩

theorem continueDispatch_next (s : State) : ∃ t, continueDispatch s = .next t := by
  rcases continueDispatch_cases s with ⟨-, -, hc⟩ | hc
  · exact ⟨_, hc⟩
  · exact ⟨_, hc⟩

/-- Settles O33: a chunk could stop a step only outside the invariant (`takeData_next`); nothing else can. -/
theorem noStepStops : Obligations.NoStepStops := by
  unfold Obligations.NoStepStops
  intro s hs
  cases hr : s.rst with
  | true => exact ⟨_, step_of_rst hr⟩
  | false =>
    cases hb : s.busy with
    | true => rw [step_of_busy hr hb]; exact continueDispatch_next s
    | false =>
      cases hq : s.hostQueue with
      | nil => exact ⟨_, step_of_idle hr hb hq⟩
      | cons e es => rw [step_of_event hr hb hq]; exact takeEvent_next (hs.withQueue es) e

end Sys2Proof.Machine

/-! ## One step of the machine (R13, R25, R51, R59, R64, R81, R83) -/

namespace Sys2Proof.Machine

/-! ### Which part of the machine a step runs -/

/-- Settles O52: `step_of_event`, event by event. -/
theorem stepTakesTheOldestEvent : Obligations.StepTakesTheOldestEvent := by
  unfold Obligations.StepTakesTheOldestEvent
  intro e es s hr hb hq
  rw [step_of_event hr hb hq]
  cases e <;> rfl

/-- Settles O31: `step_of_idle`. -/
theorem idleWithoutHostEvents : Obligations.IdleWithoutHostEvents := by
  unfold Obligations.IdleWithoutHostEvents
  exact fun s hr hb hq => step_of_idle hr hb hq

/-- Settles O23: the event is a command start (`step_of_event`), whose effect is `State.startWrite`. -/
theorem startWriteArmsTheAccumulator : Obligations.StartWriteArmsTheAccumulator := by
  unfold Obligations.StartWriteArmsTheAccumulator
  intro id es s hr hb hq
  rw [step_of_event hr hb hq]
  rfl

/-- Settles O25: no room is left (`takeData_of_full`). -/
theorem dataAfterCompletionIsDropped : Obligations.DataAfterCompletionIsDropped := by
  unfold Obligations.DataAfterCompletionIsDropped
  exact fun bs s hfull => takeData_of_full hfull.ge bs

theorem dispatchFrame_of_decode {s : State} {f : Format} {i : Instr} {rest : List Byte}
    (hf : s.frameFormat = some f) (hd : decode s.params f s.frameBytes = .ok (i, rest)) :
    dispatchFrame s = dispatchInstr i s := by
  cases (decode_frameBytes hf).symm.trans hd
  exact dispatchFrame_eq hf

theorem dispatchInstr_eq (i : Instr) (s : State) :
    dispatchInstr i s = if s.phased = true ∧ 0 < transactionCount i then .next s.beginDispatch
      else andThen (exec i (s.setBusy true)) fun t => .next (t.setBusy false) := by
  simp only [dispatchInstr, dispatchWhole, Bool.and_eq_true, decide_eq_true_eq]

/-- A frame of one of the two sizes fits the receive buffer (R9, R30, R31). -/
theorem State.receiveSize_le_of_frameFormat {s : State} {f : Format} (h : s.frameFormat = some f) :
    s.receiveSize ≤ rxbufLen := by
  rcases State.frameFormat_cases h with ⟨-, hs⟩ | ⟨-, hs⟩ <;> rw [hs] <;> decide

/-- Settles O28: the chunk completes the frame (`takeData_of_complete`), whose dispatch is that of the instruction its
bytes decode to (`dispatchFrame_of_decode`). -/
theorem stepRunsTheDecodedFrame : Obligations.StepRunsTheDecodedFrame := by
  unfold Obligations.StepRunsTheDecodedFrame
  rintro bs rest es f i s _ hr hb hq hpos hfull rfl hf hd
  have hfits : s.receiveOffset + s.acceptCount bs ≤ rxbufLen := by
    rw [hfull]
    exact State.receiveSize_le_of_frameFormat hf
  have htake := takeData_of_complete (s := { s with hostQueue := es }) hpos hfits hfull
  rw [step_of_event hr hb hq, takeEvent, htake]
  exact (dispatchFrame_of_decode hf hd).trans (dispatchInstr_eq _ _)

/-- Settles O30: the dispatch goes on by a whole transaction, that of its four bytes' instruction. -/
theorem stepRunsTheDecodedTransaction : Obligations.StepRunsTheDecodedTransaction := by
  unfold Obligations.StepRunsTheDecodedTransaction
  intro rest i s hr hb hw hstart hd
  have hwhole : (!s.phased && s.atTransactionStart) = true := by rw [hw, hstart]; rfl
  rw [step_of_busy hr hb, continueDispatch, if_pos hwhole, runTransaction, hd]

/-! ### What a dispatch in progress leaves (R64) -/

/-- What a step of a dispatch leaves alone: the parameters, the frame, the reset line, the answers, the inputs of the
host, the stepping mode. -/
theorem continueDispatch_keeps {s t : State} (h : continueDispatch s = .next t) :
    s.SameFrame t ∧ t.lineReset = s.lineReset ∧ t.answers = s.answers ∧ t.rst = s.rst
      ∧ t.hostQueue = s.hostQueue ∧ t.phased = s.phased := by
  rcases continueDispatch_cases s with ⟨-, -, hc⟩ | hc
  · cases hc.symm.trans h
    obtain ⟨_, _, hend⟩ := (s.issueCommand s.transactionQuad).endTransaction_frame
    rw [hend, State.issueCommand_eq]
    exact ⟨⟨rfl, rfl, rfl, rfl⟩, rfl, rfl, rfl, rfl, rfl⟩
  · cases hc.symm.trans h
    obtain ⟨hparams, hrxbuf, hoffset, hsize, hline, hanswers, hrst, hqueue, hphased⟩ := s.phaseStep_keeps
    exact ⟨⟨hparams, hrxbuf, hoffset, hsize⟩, hline, hanswers, hrst, hqueue, hphased⟩

/-- Settles O32: a dispatch in progress never stops (`continueDispatch_next`), and leaves what `continueDispatch_keeps`
says. -/
theorem deafDuringADispatch : Obligations.DeafDuringADispatch := by
  unfold Obligations.DeafDuringADispatch
  intro s hr hb
  obtain ⟨t, ht⟩ := continueDispatch_next s
  obtain ⟨⟨-, hrxbuf, hoffset, hsize⟩, hline, hanswers, -, hqueue, -⟩ := continueDispatch_keeps ht
  exact ⟨t, (step_of_busy hr hb).trans ht, hqueue, hanswers, hrxbuf, hoffset, hsize, hline⟩

/-! ### What taking a host event leaves -/

/-- What no instruction and no host event writes: the parameters, the inputs of the host, the stepping mode. -/
def State.SameInputs (s t : State) : Prop :=
  t.params = s.params ∧ t.rst = s.rst ∧ t.hostQueue = s.hostQueue ∧ t.phased = s.phased

theorem State.SameInputs.refl (s : State) : s.SameInputs s := ⟨rfl, rfl, rfl, rfl⟩

theorem dispatchFrame_sameInputs {s t : State} (h : dispatchFrame s = .next t) : s.SameInputs t := by
  obtain ⟨_, -, hd⟩ := dispatchFrame_cases h
  rcases dispatchInstr_cases hd with ⟨-, -, rfl⟩ | ⟨u, hu, rfl⟩
  · exact .refl s
  · obtain ⟨_, _, _, _, _, _, _, _, _, _, rfl⟩ := exec_frame hu
    exact .refl s

theorem takeEvent_sameInputs {e : HostEvent} {s t : State} (h : takeEvent e s = .next t) : s.SameInputs t := by
  cases e with
  | startWrite id => cases h; exact .refl s
  | data bs =>
    rcases takeData_cases h with ⟨-, rfl⟩ | ⟨-, -, -, rfl⟩ | ⟨-, -, -, hd⟩
    · exact .refl t
    · exact .refl s
    · exact (dispatchFrame_sameInputs hd :)
  | startRead id =>
    obtain ⟨a, ha⟩ := takeRead_cases id s
    cases ha.symm.trans h
    exact .refl s

/-- Settles O38: no case of a step writes the parameters. -/
theorem parametersNeverChange : Obligations.ParametersNeverChange := by
  unfold Obligations.ParametersNeverChange
  intro s t h
  rcases step_cases h with ⟨-, rfl⟩ | ⟨-, -, hc⟩ | ⟨-, -, -, rfl⟩ | ⟨-, -, e, es, -, he⟩
  · rfl
  · obtain ⟨⟨hparams, -⟩, -⟩ := continueDispatch_keeps hc
    exact hparams
  · rfl
  · obtain ⟨hparams, -⟩ := takeEvent_sameInputs he
    exact hparams

end Sys2Proof.Machine

/-! ## What changes the reply buffer (R8, R66) -/

namespace Sys2Proof.Machine

/-- An instruction that changes `reply` is an ISP_COMMAND with a transaction; `reply` then holds the last response. -/
theorem exec_reply_of_ne {i : Instr} {s t : State} (h : exec i s = .next t) (hne : t.reply ≠ s.reply) :
    ((∃ r q c, i = .ispCommandS r q c) ∨ (∃ r q n body, i = .ispCommandB r q n body ∧ batchCount n ≠ 0))
      ∧ t.reply = t.resp := by
  cases i with
  | resetDeviceS r q f x1 x2 x3 => cases h; exact absurd (State.setReset_reply _ s) hne
  | resetDeviceB r q f body => cases h; exact absurd (State.setReset_reply _ s) hne
  | ispCommandS r q c =>
    obtain rfl := Host.Outcome.next.inj h
    exact ⟨.inl ⟨r, q, c, rfl⟩, by rw [State.issueAndStore_eq]⟩
  | ispCommandB r q n body =>
    cases h
    refine ⟨.inr ⟨r, q, n, body, rfl, fun h0 => hne ?_⟩, ?_⟩
    · rw [List.length_eq_zero_iff.mp ((length_batchTransactions s.params n body).trans h0)]
      rfl
    · generalize batchTransactions s.params n body = cs at hne ⊢
      cases cs with
      | nil => exact absurd rfl hne
      | cons c cs => rw [State.issueAll_cons]
  | unknownS r q o x0 x1 x2 x3 => cases h; exact absurd rfl hne
  | unknownB r q o x body => cases h; exact absurd rfl hne
  | statusRead => cases h; exact absurd rfl hne
  | ispTransaction c =>
    obtain rfl := Host.Outcome.next.inj h
    exact absurd (by rw [State.issueCommand_eq]) hne

/-- Settles O21: `exec_reply_of_ne`. -/
theorem onlyIspCommandsChangeTheReply : Obligations.OnlyIspCommandsChangeTheReply := by
  unfold Obligations.OnlyIspCommandsChangeTheReply
  intro i s t h hne
  obtain ⟨hi, -⟩ := exec_reply_of_ne h hne
  simpa only [batchCount_eq_mod] using hi

/-- An instruction that changes `reply` has a transaction. -/
theorem transactionCount_pos_of_reply_ne {i : Instr} {s t : State} (h : exec i s = .next t)
    (hne : t.reply ≠ s.reply) : 0 < transactionCount i := by
  obtain ⟨⟨r, q, c, rfl⟩ | ⟨r, q, n, body, rfl, hn⟩, -⟩ := exec_reply_of_ne h hne
  · exact Nat.one_pos
  · exact Nat.pos_of_ne_zero hn

/-- A dispatch that changes `reply` is that of an ISP_COMMAND frame with a transaction (R61, R62). -/
theorem dispatchFrame_reply_of_ne {s t : State} (h : dispatchFrame s = .next t) (hne : t.reply ≠ s.reply) :
    t.reply = t.resp ∧ s.rxbuf.load 2 = s.params.opcIspCommand
      ∧ (s.receiveSize = 7 ∨ (s.receiveSize = 133 ∧ (s.rxbuf.load 3).toNat % 32 ≠ 0)) := by
  obtain ⟨f, hf, hd⟩ := dispatchFrame_cases h
  rcases dispatchInstr_cases hd with ⟨-, -, rfl⟩ | ⟨u, hu, rfl⟩
  · exact absurd rfl hne
  · have hpos := transactionCount_pos_of_reply_ne hu hne
    obtain ⟨-, hresp⟩ := exec_reply_of_ne hu hne
    obtain ⟨hopc, htotal⟩ := State.of_transactionCount_pos hpos
    refine ⟨hresp, hopc, ?_⟩
    rcases State.frameFormat_cases hf with ⟨-, hs⟩ | ⟨-, hs⟩
    · exact .inl hs
    · have hbatch : s.transactionTotal = batchCount (s.rxbuf.load 3) := if_neg (by rw [hs]; decide)
      rw [← batchCount_eq_mod]
      exact .inr ⟨hs, by omega⟩

/-- A chunk that changes `reply` completes an ISP_COMMAND frame with a transaction (R53, R54). -/
theorem takeData_reply_of_ne {bs : List Byte} {s t : State} (h : takeData bs s = .next t)
    (hne : t.reply ≠ s.reply) :
    t.reply = t.resp ∧ 0 < s.acceptCount bs ∧ t.receiveOffset = t.receiveSize
      ∧ t.rxbuf.load 2 = t.params.opcIspCommand
      ∧ (t.receiveSize = 7 ∨ (t.receiveSize = 133 ∧ (t.rxbuf.load 3).toNat % 32 ≠ 0)) := by
  rcases takeData_cases h with ⟨-, rfl⟩ | ⟨-, -, -, rfl⟩ | ⟨hpos, -, hfull, hd⟩
  · exact absurd rfl hne
  · exact absurd rfl hne
  · obtain ⟨hparams, hrxbuf, hoffset, hsize⟩ := dispatchFrame_keeps hd
    obtain ⟨hresp, hframe⟩ := dispatchFrame_reply_of_ne hd hne
    rw [hparams, hrxbuf, hoffset, hsize, State.append_receiveOffset, State.length_take_acceptCount]
    exact ⟨hresp, hpos, hfull, hframe⟩

/-- An event that changes `reply` is a chunk. -/
theorem takeEvent_reply_of_ne {e : HostEvent} {s t : State} (h : takeEvent e s = .next t)
    (hne : t.reply ≠ s.reply) : ∃ bs, e = .data bs ∧ takeData bs s = .next t := by
  cases e with
  | startWrite id => cases h; exact absurd rfl hne
  | data bs => exact ⟨bs, rfl, h⟩
  | startRead id =>
    obtain ⟨a, ha⟩ := takeRead_cases id s
    cases ha.symm.trans h
    exact absurd rfl hne

theorem State.endTransaction_reply (s : State) : s.endTransaction.reply = s.endTransaction.resp := by
  obtain ⟨_, _, h⟩ := s.endTransaction_frame
  rw [h]

/-- Of the ends of a byte only that of byte 3 writes `reply`. -/
theorem State.endByte_reply_of_ne {s : State} (hne : s.endByte.reply ≠ s.reply) :
    s.endByte.reply = s.endByte.resp ∧ s.byteIdx.val = 3 := by
  unfold State.endByte at hne ⊢
  split at hne
  · exact absurd rfl hne
  · rename_i hlast
    rw [if_neg hlast]
    exact ⟨State.endTransaction_reply _, by omega⟩

/-- Of the ends of a bit only that of bit 0 of byte 3 writes `reply`. -/
theorem State.endBit_reply_of_ne {s : State} (hne : s.endBit.reply ≠ s.reply) :
    s.endBit.reply = s.endBit.resp ∧ s.bitIdx.val = 0 ∧ s.byteIdx.val = 3 := by
  unfold State.endBit at hne ⊢
  split at hne
  · exact absurd rfl hne
  · rename_i hlast
    obtain ⟨hresp, hbyte⟩ := State.endByte_reply_of_ne hne
    rw [if_neg hlast]
    exact ⟨hresp, by omega, hbyte⟩

/-- Of the phases only the last of a transaction writes `reply` (R8, R42). -/
theorem State.phaseStep_reply_of_ne {s : State} (hne : s.phaseStep.reply ≠ s.reply) :
    s.phaseStep.reply = s.phaseStep.resp ∧ s.phase = .lowerClock ∧ s.bitIdx.val = 0 ∧ s.byteIdx.val = 3 := by
  cases hphase : s.phase
  case driveData => exact absurd (by rw [State.phaseStep_driveData hphase]; rfl) hne
  case settleLow =>
    obtain ⟨_, _, _, hs, -⟩ := s.settleStep_frame .raiseClock
    exact absurd (by rw [State.phaseStep_settleLow hphase, hs]) hne
  case raiseClock => exact absurd (by rw [State.phaseStep_raiseClock hphase]; rfl) hne
  case sample => exact absurd (by rw [State.phaseStep_sample hphase]; rfl) hne
  case settleHigh =>
    obtain ⟨_, _, _, hs, -⟩ := s.settleStep_frame .lowerClock
    exact absurd (by rw [State.phaseStep_settleHigh hphase, hs]) hne
  case lowerClock =>
    rw [State.phaseStep_lowerClock hphase] at hne ⊢
    obtain ⟨hresp, hbit, hbyte⟩ := State.endBit_reply_of_ne hne
    exact ⟨hresp, rfl, hbit, hbyte⟩

/-- A step of a dispatch that changes `reply` ends a transaction (R61, R62). -/
theorem continueDispatch_reply_of_ne {s t : State} (h : continueDispatch s = .next t) (hne : t.reply ≠ s.reply) :
    t.reply = t.resp ∧ ((s.phased = false ∧ s.atTransactionStart = true)
      ∨ (s.phase = .lowerClock ∧ s.bitIdx.val = 0 ∧ s.byteIdx.val = 3)) := by
  rcases continueDispatch_cases s with ⟨hw, hstart, hc⟩ | hc
  · cases hc.symm.trans h
    exact ⟨State.endTransaction_reply _, .inl ⟨hw, hstart⟩⟩
  · cases hc.symm.trans h
    obtain ⟨hresp, hlast⟩ := State.phaseStep_reply_of_ne hne
    exact ⟨hresp, .inr hlast⟩

/-- Settles O51: the cases of a step; in a legal state the dispatch in progress is that of a complete ISP_COMMAND frame
(`State.Inv.frame`). -/
theorem onlyCompletedIspFramesChangeTheReply : Obligations.OnlyCompletedIspFramesChangeTheReply := by
  unfold Obligations.OnlyCompletedIspFramesChangeTheReply
  intro s t h hne
  rcases step_cases h with ⟨hrst, -⟩ | ⟨-, hb, hc⟩ | ⟨-, -, -, rfl⟩ | ⟨-, hb, e, es, hqueue, he⟩
  · exact .inl hrst
  · obtain ⟨hresp, hend⟩ := continueDispatch_reply_of_ne hc hne
    refine .inr (.inl ⟨hb, hresp, fun hs => ?_, hend⟩)
    obtain ⟨hfull, -, hopc, -⟩ := hs.frame hb
    exact ⟨hfull, hopc⟩
  · exact absurd rfl hne
  · obtain ⟨bs, rfl, hd⟩ := takeEvent_reply_of_ne he hne
    obtain ⟨hresp, hcomplete⟩ := takeData_reply_of_ne hd hne
    exact .inr (.inr ⟨hb, hresp, bs, es, hqueue, hcomplete⟩)

end Sys2Proof.Machine

/-! ## Writes in chunks, and runs of steps (R27, R51 to R56) -/

namespace Sys2Proof.Machine

/-- Settles O26: `takeEvents_data`; a legal state's frame fits the buffer. -/
theorem chunkingDoesNotMatter : Obligations.ChunkingDoesNotMatter := by
  unfold Obligations.ChunkingDoesNotMatter
  exact fun chunks s hs => takeEvents_data chunks hs.inv.receiveSize_le

theorem State.startWrite_receiveSize_le (id : Byte) (s : State) : (s.startWrite id).receiveSize ≤ rxbufLen := by
  rw [State.startWrite_receiveSize]
  split
  · decide
  · split <;> decide

/-- A report write depends on its bytes only, not on how they are cut (R56). -/
theorem takeEvents_writeReport_congr (id : Byte) {as bs : List (List Byte)} (h : as.flatten = bs.flatten)
    (s : State) : takeEvents (writeReport id as) s = takeEvents (writeReport id bs) s := by
  have hsize := s.startWrite_receiveSize_le id
  rw [writeReport, writeReport, takeEvents, takeEvents, takeEvent, andThen_next, andThen_next,
    takeEvents_data as hsize, takeEvents_data bs hsize, h]

theorem mem_writeReport_data {id : Byte} {chunks : List (List Byte)} {c : List Byte} :
    HostEvent.data c ∈ writeReport id chunks ↔ c ∈ chunks := by
  simp [writeReport]

/-- Settles O54: the cut's bounds are `length_of_mem_cutChunks`, and its bytes those of the one chunk
(`flatten_cutChunks`). -/
theorem maxChunkDoesNotMatter : Obligations.MaxChunkDoesNotMatter := by
  unfold Obligations.MaxChunkDoesNotMatter
  intro id bs s hs
  refine ⟨fun c hc => length_of_mem_cutChunks (mem_writeReport_data.mp hc), takeEvents_writeReport_congr id ?_ s⟩
  rw [flatten_cutChunks (Params.wf_maxChunk hs.inv.params) (Nat.le_refl _), List.flatten_singleton]

/-- The frame of a complete report is the bytes written (R27). -/
theorem IsWholeReport.frameBytes_withReport {id : Byte} {bs : List Byte} (h : IsWholeReport id bs) {s : State}
    (hm : s.rxbuf.wf = true) : (s.withReport id bs).frameBytes = bs := by
  have hsize : (s.withReport id bs).receiveSize = bs.length := h.startWrite_receiveSize s
  refine List.ext_getElem (by simp [State.frameBytes, hsize]) fun k _ hk => ?_
  simpa [State.frameBytes] using h.load_withReport hm (List.getElem?_eq_getElem hk)

/-- The layout of a complete report is that of its id (R29, R52). -/
theorem frameFormat_withReport {id : Byte} {f : Format} {bs : List Byte}
    (h : (id = 0x02 ∧ f = .single ∧ bs.length = 7) ∨ (id = 0x03 ∧ f = .batch ∧ bs.length = 133)) (s : State) :
    (s.withReport id bs).frameFormat = some f := by
  rcases h with ⟨rfl, rfl, -⟩ | ⟨rfl, rfl, -⟩
  · exact State.frameFormat_single s.startWrite_single_receiveSize
  · exact State.frameFormat_batch s.startWrite_batch_receiveSize

/-- The state in which the report `bs` is complete, its bytes at the front of the buffer (R52, R53). -/
theorem IsWholeReport.withReport_eq {id : Byte} {bs : List Byte} (h : IsWholeReport id bs) (s : State) :
    s.withReport id bs = { s with
      rxbuf := s.rxbuf.storeAll 0 bs, receiveSize := bs.length, receiveOffset := bs.length } := by
  have hsize := h.startWrite_receiveSize s
  rw [State.startWrite] at hsize
  simp only [State.withReport, State.startWrite, State.append, Nat.zero_add, hsize]

theorem dispatchInstr_eq_whole {s : State} (h : s.phased = false) (i : Instr) :
    dispatchInstr i s = dispatchWhole i s := by
  rw [dispatchInstr, h]
  rfl

/-- Settles O27: the write dispatches its frame (`takeEvents_writeReport`), whose bytes are those written. -/
theorem wholeReportRunsItsInstruction : Obligations.WholeReportRunsItsInstruction := by
  unfold Obligations.WholeReportRunsItsInstruction
  intro id f bs s hs h
  have hreport : IsWholeReport id bs := h.imp (fun h => ⟨h.1, h.2.2⟩) fun h => ⟨h.1, h.2.2⟩
  have hf := frameFormat_withReport h s
  have hdecode := decode_frameBytes hf
  rw [hreport.frameBytes_withReport hs.inv.rxbuf] at hdecode
  have hwhole : (s.withReport id bs).phased = false := hs.whole
  have hwrite := takeEvents_writeReport (id := id) (chunks := [bs]) (by simpa using hreport) s
  rw [List.flatten_singleton, dispatchFrame_eq hf, dispatchInstr_eq_whole hwhole] at hwrite
  exact ⟨_, hdecode, hreport.withReport_eq s ▸ hwrite⟩

/-! ### A read between chunks (R87) -/

/-- Settles O45: the two bytes leave the frame incomplete (`takeData_of_lt`), and the read reports the second one. -/
theorem readBetweenChunksMixesFrames : Obligations.ReadBetweenChunksMixesFrames := by
  unfold Obligations.ReadBetweenChunksMixesFrames
  intro r q s hs
  have hsize := s.startWrite_single_receiveSize
  have htake : takeData [r, q] (s.startWrite reportSingleId) = .next ((s.startWrite reportSingleId).append [r, q]) :=
    takeData_of_lt (s.startWrite_receiveSize_le _) (by rw [hsize]; exact (by decide : 2 < rxSizeSingle))
  have hseq : ((s.startWrite reportSingleId).append [r, q]).rxbuf.load 1 = q :=
    Memory.load_storeAll_range [r, q] 1 hs.inv.rxbuf (by decide : 2 ≤ rxbufLen)
  refine ⟨((s.startWrite reportSingleId).append [r, q]).answer _, _, ?_, rfl, hsize, rfl,
    State.isReport_statusReport_of_load (s := (s.startWrite reportSingleId).append [r, q]) hs.inv.params hseq⟩
  rw [takeEvents, takeEvent, andThen_next, takeEvents, takeEvent]
  exact congrArg (andThen · (takeEvents hostStatus)) htake

/-! ### Steps that take the waiting events (R25, R51) -/

/-- The host events that wait are `es`. -/
def State.withQueue (es : List HostEvent) (s : State) : State := { s with hostQueue := es }

theorem State.transferBits_withQueue (es : List HostEvent) (b : Byte) : ∀ (k : Nat) (s : State),
    State.transferBits b k (s.withQueue es) = (State.transferBits b k s).withQueue es
  | 0, _ => rfl
  | k + 1, s => State.transferBits_withQueue es b k (s.transferBit (b.getLsbD k))

theorem State.transferInto_withQueue (es : List HostEvent) (j : Fin 4) (b : Byte) (s : State) :
    (s.withQueue es).transferInto j b = (s.transferInto j b).withQueue es := by
  rw [State.transferInto, State.transferByte, State.transferBits_withQueue]
  rfl

theorem State.issueCommand_withQueue (es : List HostEvent) (c : Quad) (s : State) :
    (s.withQueue es).issueCommand c = (s.issueCommand c).withQueue es := by
  simp only [State.issueCommand, State.transferInto_withQueue]

theorem State.issueAll_withQueue (es : List HostEvent) : ∀ (cs : List Quad) (s : State),
    (s.withQueue es).issueAll cs = (s.issueAll cs).withQueue es
  | [], _ => rfl
  | c :: cs, s => by
    rw [State.issueAll, State.issueCommand_withQueue]
    exact State.issueAll_withQueue es cs (s.issueCommand c).storeReply

theorem State.setReset_withQueue (es : List HostEvent) (a : Bool) (s : State) :
    (s.withQueue es).setReset a = (s.setReset a).withQueue es := by
  rw [State.setReset_eq, State.setReset_eq]
  rfl

/-- What waits has no effect on an instruction, and it leaves it waiting. -/
theorem exec_withQueue (es : List HostEvent) {i : Instr} {s t : State} (h : exec i s = .next t) :
    exec i (s.withQueue es) = .next (t.withQueue es) := by
  cases i with
  | resetDeviceS r q f x1 x2 x3 =>
    obtain rfl := Host.Outcome.next.inj h
    exact congrArg Host.Outcome.next (State.setReset_withQueue es _ s)
  | resetDeviceB r q f body =>
    obtain rfl := Host.Outcome.next.inj h
    exact congrArg Host.Outcome.next (State.setReset_withQueue es _ s)
  | ispCommandS r q c =>
    obtain rfl := Host.Outcome.next.inj h
    exact congrArg Host.Outcome.next (State.issueAll_withQueue es [c] s)
  | ispCommandB r q n body =>
    obtain rfl := Host.Outcome.next.inj h
    exact congrArg Host.Outcome.next (State.issueAll_withQueue es _ s)
  | unknownS r q o x0 x1 x2 x3 => cases h; rfl
  | unknownB r q o x body => cases h; rfl
  | statusRead => cases h; rfl
  | ispTransaction c =>
    obtain rfl := Host.Outcome.next.inj h
    exact congrArg Host.Outcome.next (State.issueCommand_withQueue es c s)

theorem dispatchInstr_withQueue (es : List HostEvent) {i : Instr} {s t : State} (h : dispatchInstr i s = .next t) :
    dispatchInstr i (s.withQueue es) = .next (t.withQueue es) := by
  rw [dispatchInstr_eq] at h ⊢
  split at h
  · rename_i hphased
    cases h
    exact if_pos hphased
  · rename_i hwhole
    obtain ⟨u, hu, ht⟩ := andThen_eq_next.mp h
    cases ht
    have hexec := exec_withQueue es hu
    exact (if_neg hwhole).trans (congrArg (andThen · _) hexec)

theorem dispatchFrame_withQueue (es : List HostEvent) {s t : State} (h : dispatchFrame s = .next t) :
    dispatchFrame (s.withQueue es) = .next (t.withQueue es) := by
  obtain ⟨f, hf, hd⟩ := dispatchFrame_cases h
  exact (dispatchFrame_eq (s := s.withQueue es) hf).trans (dispatchInstr_withQueue es hd)

/-- What waits has no effect on the event taken, and it leaves it waiting. -/
theorem takeEvent_withQueue (es : List HostEvent) {e : HostEvent} {s t : State} (h : takeEvent e s = .next t) :
    takeEvent e (s.withQueue es) = .next (t.withQueue es) := by
  cases e with
  | startWrite id => cases h; rfl
  | data bs =>
    rcases takeData_cases h with ⟨h0, rfl⟩ | ⟨h0, h1, h2, rfl⟩ | ⟨h0, h1, h2, hd⟩
    · exact takeData_of_none (s := t.withQueue es) h0
    · exact takeData_of_part (s := s.withQueue es) h0 h1 h2
    · exact (takeData_of_complete (s := s.withQueue es) h0 h1 h2).trans (dispatchFrame_withQueue es hd)
  | startRead id =>
    by_cases hid : id = reportStatusId
    · subst hid; cases h; rfl
    · cases (takeRead_other hid s).symm.trans h
      exact takeRead_other hid _

/-- Stepping by whole dispatches, an event taken leaves no dispatch in progress. -/
theorem takeEvent_busy {e : HostEvent} {s t : State} (h : takeEvent e s = .next t) (hw : s.phased = false)
    (hb : s.busy = false) : t.busy = false := by
  cases e with
  | startWrite id => cases h; exact hb
  | data bs =>
    rcases takeData_cases h with ⟨-, rfl⟩ | ⟨-, -, -, rfl⟩ | ⟨-, -, -, hd⟩
    · exact hb
    · exact hb
    · obtain ⟨_, -, hi⟩ := dispatchFrame_cases hd
      rcases dispatchInstr_cases hi with ⟨hphased, -, -⟩ | ⟨u, -, rfl⟩
      · exact absurd (hphased.symm.trans hw) (by decide)
      · rfl
  | startRead id =>
    obtain ⟨a, ha⟩ := takeRead_cases id s
    cases ha.symm.trans h
    exact hb

/-- An event taken leaves the block ready for the next one. -/
theorem takeEvent_quiescent {e : HostEvent} {s t : State} (h : takeEvent e s = .next t) (hs : s.Quiescent) :
    t.Quiescent where
  inv := takeEvent_inv h hs.inv hs.notBusy
  notBusy := takeEvent_busy h hs.whole hs.notBusy
  whole := by
    obtain ⟨-, -, -, hphased⟩ := takeEvent_sameInputs h
    exact hphased.trans hs.whole

theorem step_withQueue_cons {e : HostEvent} {es : List HostEvent} {s : State} (hr : s.rst = false)
    (hb : s.busy = false) : step (s.withQueue (e :: es)) = takeEvent e (s.withQueue es) :=
  step_of_event (s := s.withQueue (e :: es)) hr hb rfl

/-- One step for each of the events `es` takes them in their order (R25). -/
theorem stepMany_withQueue (es later : List HostEvent) {s : State} (hs : s.Quiescent) (hr : s.rst = false) :
    stepMany es.length (s.withQueue (es ++ later)) = andThen (takeEvents es s) fun t => .next (t.withQueue later) := by
  induction es generalizing s with
  | nil => rfl
  | cons e es ih =>
    obtain ⟨t, ht⟩ := takeEvent_next hs.inv e
    obtain ⟨-, hrst, -⟩ := takeEvent_sameInputs ht
    have hstep : step (s.withQueue (e :: (es ++ later))) = .next (t.withQueue (es ++ later)) :=
      (step_withQueue_cons hr hs.notBusy).trans (takeEvent_withQueue (es ++ later) ht)
    rw [List.length_cons, List.cons_append, stepMany, hstep, andThen_next, takeEvents, ht, andThen_next]
    exact ih (takeEvent_quiescent ht hs) (hrst.trans hr)

/-- Settles O53: the state with the events `es ++ later` waiting is its own `State.withQueue`. -/
theorem stepsTakeTheWaitingEvents : Obligations.StepsTakeTheWaitingEvents := by
  unfold Obligations.StepsTakeTheWaitingEvents
  intro es later s hs hr hq
  have hself : s.withQueue (es ++ later) = s := by rw [State.withQueue, ← hq]
  have hsteps := stepMany_withQueue es later hs hr
  rw [hself] at hsteps
  exact hsteps

/-! ### Two events in one cycle (R75) -/

/-- The command start that a cycle's inputs offer (R16). -/
def PortIn.commandStart (p : PortIn) : HostEvent := if p.hCmdRead then .startRead p.hCmdId else .startWrite p.hCmdId

theorem portEvents_of_both {p : PortIn} (hc : p.hCmdValid = true) (hw : p.hWrValid = true) :
    portEvents p = [p.commandStart, .data [p.hWrData]] := by
  rw [portEvents, if_pos hc, if_pos hw]
  rfl

/-- A command start never stops, and starts no dispatch. -/
theorem takeEvent_commandStart (p : PortIn) (s : State) :
    ∃ t, takeEvent p.commandStart s = .next t ∧ t.busy = s.busy := by
  unfold PortIn.commandStart
  split
  · obtain ⟨a, ha⟩ := takeRead_cases p.hCmdId s
    exact ⟨_, ha, rfl⟩
  · exact ⟨_, rfl, rfl⟩

/-- Settles O49: the two events join the queue in the order of `portEvents`, and each step takes the oldest one
(`step_of_event`). -/
theorem commandStartIsTakenFirst : Obligations.CommandStartIsTakenFirst := by
  unfold Obligations.CommandStartIsTakenFirst
  intro p s hc hw
  have hevents := portEvents_of_both hc hw
  refine ⟨congrArg (s.hostQueue ++ ·) hevents, fun hrst hb hq => ?_⟩
  have hqueue : (s.offer p).hostQueue = [p.commandStart, .data [p.hWrData]] := by
    rw [State.offer, hq, hevents]
    rfl
  obtain ⟨t, ht, hbusy⟩ := takeEvent_commandStart p { s.offer p with hostQueue := [.data [p.hWrData]] }
  obtain ⟨-, hrst', hqueue', -⟩ := takeEvent_sameInputs ht
  exact ⟨t, (step_of_event (s := s.offer p) hrst hb hqueue).trans ht, ht,
    step_of_event (hrst'.trans hrst) (hbusy.trans hb) hqueue'⟩

end Sys2Proof.Machine

/-! ## The signal driver's lines, bits and bytes (R33, R41 to R43, R46) -/

namespace Sys2Proof.Machine

/-- Settles O6: `State.setLine` line by line; the newest event is the last in the order of R49. -/
theorem setLineDrivesTheLineAndRecordsIt : Obligations.SetLineDrivesTheLineAndRecordsIt := by
  unfold Obligations.SetLineDrivesTheLineAndRecordsIt
  exact fun v s => ⟨rfl, rfl, rfl, List.reverse_cons⟩

/-- The level a bit samples is the target's next one (R28). -/
theorem State.presents_bitLevel (v : Level) (s : State) : s.Presents 1 [s.bitLevel v] :=
  ⟨rfl, State.levelsOf_take [v] s⟩

/-- The shift doubles the register, modulo 256, and adds the sample (R42, R50). -/
theorem shiftIn_eq_ofNat (r : Byte) (x : Level) : shiftIn r x = BitVec.ofNat 8 (2 * r.toNat + x.toNat) := by
  rw [shiftIn_eq_double]
  cases x <;> apply BitVec.eq_of_toNat_eq <;> simp [Nat.mul_comm]

/-- Settles O7: `State.transferBit_eq`. -/
theorem transferBitPerformsTheSixSteps : Obligations.TransferBitPerformsTheSixSteps := by
  unfold Obligations.TransferBitPerformsTheSixSteps
  intro v s
  refine ⟨s.bitLevel v, s.presents_bitLevel v, ?_⟩
  rw [State.transferBit_eq, shiftIn_eq_ofNat, List.drop_one]
  rfl

/-! ### The bits of a byte of samples (R21) -/

theorem byteOfSamples_concat (ss : List Level) (x : Level) :
    byteOfSamples (ss ++ [x]) = shiftIn (byteOfSamples ss) x := by
  rw [shiftIn_eq_double, byteOfSamples, List.foldl_append]
  rfl

theorem getLsbD_shiftIn_zero (r : Byte) (x : Level) : (shiftIn r x).getLsbD 0 = x := by
  simp [shiftIn]

theorem getLsbD_shiftIn_succ (r : Byte) (x : Level) {k : Nat} (hk : k + 1 < 8) :
    (shiftIn r x).getLsbD (k + 1) = r.getLsbD k := by
  simp [shiftIn, hk, BitVec.getLsbD_eq_getElem (show k < 8 by omega)]

/-- The last sample stands in bit 0, the one before it in bit 1, and so on. -/
theorem getElem?_reverse_samples (ss : List Level) : ∀ {k : Nat}, k < 8 → k < ss.length →
    some ((byteOfSamples ss).getLsbD k) = ss.reverse[k]? := by
  induction ss using List.reverseRecOn with
  | nil => intro k _ hk; exact absurd hk (Nat.not_lt_zero k)
  | append_singleton ss x ih =>
    intro k hk hlen
    rw [byteOfSamples_concat, List.reverse_concat]
    cases k with
    | zero => rw [getLsbD_shiftIn_zero]; rfl
    | succ k =>
      rw [List.length_append, List.length_singleton] at hlen
      rw [getLsbD_shiftIn_succ _ _ hk, List.getElem?_cons_succ]
      exact ih (by omega) (by omega)

/-- Of eight samples that of cycle `7 - k` is bit `k` of their byte (R21, R43). -/
theorem getLsbD_byteOfSamples {ss : List Level} (hlen : ss.length = 8) {k : Nat} (hk : k < 8) :
    some ((byteOfSamples ss).getLsbD k) = ss[7 - k]? := by
  rw [getElem?_reverse_samples ss hk (by omega), List.getElem?_reverse (by omega), hlen]

/-- Settles O8: `State.transferByte_eq`, and the bits of its result by `getLsbD_byteOfSamples`. -/
theorem transferByteIsMostSignificantBitFirst : Obligations.TransferByteIsMostSignificantBitFirst := by
  unfold Obligations.TransferByteIsMostSignificantBitFirst
  intro b s
  refine ⟨s.byteLevels b, ⟨s.length_byteLevels b, State.levelsOf_take _ s⟩, fun k hk => ?_, ?_⟩
  · rw [State.transferByte_eq]
    exact getLsbD_byteOfSamples (s.length_byteLevels b) hk
  · rw [State.transferByte_eq]
    rfl

/-! ### The events of one cycle (R33) -/

/-- The six events of cycle `m` stand at `6 m` and on. -/
theorem getElem?_bitsEvents : ∀ {vs ss : List Level} {m : Nat} {v x : Level}, vs[m]? = some v → ss[m]? = some x →
    ∀ {j : Nat}, j < 6 → (bitsEvents vs ss)[6 * m + j]? = (bitEvents v x)[j]?
  | v :: vs, x :: ss, 0, _, _, rfl, rfl, j, hj => by
    rw [bitsEvents_cons, Nat.mul_zero, Nat.zero_add]
    exact List.getElem?_append_left hj
  | w :: vs, y :: ss, m + 1, v, x, hv, hx, j, hj => by
    have hlen : (bitEvents w y).length = 6 := rfl
    rw [bitsEvents_cons, List.getElem?_append_right (by omega), hlen, show 6 * (m + 1) + j - 6 = 6 * m + j by omega]
    exact getElem?_bitsEvents (vs := vs) (ss := ss) hv hx hj

theorem getElem?_byteBits (b : Byte) (k : Fin 8) : (byteBits b)[k.val]? = some (b.getLsbD (7 - k.val)) := by
  fin_cases k <;> rfl

/-- From bit `8 n` on a transaction sends byte `n`. -/
theorem drop_quadBits (c : Quad) (n : Fin 4) :
    ∃ bits, (quadBits c).drop (8 * n.val) = byteBits (c.get n) ++ bits := by
  fin_cases n <;> exact ⟨_, rfl⟩

/-- Bit `8 n + k` of a transaction is bit `7 - k` of byte `n`. -/
theorem getElem?_quadBits (c : Quad) (n : Fin 4) (k : Fin 8) :
    (quadBits c)[8 * n.val + k.val]? = some ((c.get n).getLsbD (7 - k.val)) := by
  obtain ⟨bits, hdrop⟩ := drop_quadBits c n
  rw [← List.getElem?_drop, hdrop, List.getElem?_append_left k.isLt, getElem?_byteBits]

theorem get_responseOf (ss : List Level) (n : Fin 4) :
    (responseOf ss).get n = byteOfSamples ((ss.drop (8 * n.val)).take 8) := by
  fin_cases n <;> rfl

/-- Bit `7 - k` of response byte `n` is sample `8 n + k`. -/
theorem getElem?_samples {ss : List Level} (hlen : ss.length = 32) (n : Fin 4) (k : Fin 8) :
    ss[8 * n.val + k.val]? = some (((responseOf ss).get n).getLsbD (7 - k.val)) := by
  have hlen8 : ((ss.drop (8 * n.val)).take 8).length = 8 := by
    rw [List.length_take, List.length_drop]
    omega
  rw [get_responseOf, getLsbD_byteOfSamples hlen8 (by omega), show 7 - (7 - k.val) = k.val by omega,
    List.getElem?_take_of_lt k.isLt, List.getElem?_drop]

/-- Settles O9: the events of cycle `8 n + k` (`getElem?_bitsEvents`) carry its bit and its sample. -/
theorem cycleCarriesItsBit : Obligations.CycleCarriesItsBit := by
  unfold Obligations.CycleCarriesItsBit
  intro c ss n k hlen
  have hbit := getElem?_quadBits c n k
  have hsample := getElem?_samples hlen n k
  exact ⟨getElem?_bitsEvents hbit hsample (j := 0) (by decide),
    getElem?_bitsEvents hbit hsample (j := 3) (by decide)⟩

/-! ### What the target cannot change (R46) -/

/-- With the levels sampled left out, the events of a run of bits depend on the bits only. -/
theorem map_eraseSample_bitsEvents : ∀ {vs ss rs : List Level}, vs.length = ss.length → vs.length = rs.length →
    (bitsEvents vs ss).map eraseSample = (bitsEvents vs rs).map eraseSample
  | [], [], [], _, _ => rfl
  | v :: vs, x :: ss, y :: rs, hs, hr => by
    rw [bitsEvents_cons, bitsEvents_cons, List.map_append, List.map_append,
      map_eraseSample_bitsEvents (Nat.succ.inj hs) (Nat.succ.inj hr)]
    rfl

theorem State.issueCommand_lineEvents (c : Quad) (s : State) :
    (s.issueCommand c).lineEvents = s.lineEvents ++ traceOf c (s.quadLevels c) := by
  rw [State.issueCommand_eq, State.lineEvents, List.reverse_append, List.reverse_reverse]
  rfl

/-- Settles O12: both runs append `traceOf` of the same bits, 192 events with equal erasures. -/
theorem signalingDoesNotDependOnTheTarget : Obligations.SignalingDoesNotDependOnTheTarget := by
  unfold Obligations.SignalingDoesNotDependOnTheTarget
  intro c d s ls n
  constructor
  · have hlen : ∀ t : State, (quadBits c).length = (t.quadLevels c).length := fun t => (t.length_quadLevels c).symm
    rw [State.issueCommand_lineEvents, State.issueCommand_lineEvents, List.map_append, List.map_append]
    exact congrArg _ (map_eraseSample_bitsEvents (hlen _) (hlen _))
  · rw [State.issueCommand_lineEvents, State.issueCommand_lineEvents, List.length_append, List.length_append,
      length_traceOf c (s.length_quadLevels c), length_traceOf d (s.length_quadLevels d)]

/-! ## The commands (R60, R63) -/

/-- The flag drives the line low exactly when it is not 0x00 (R34). -/
theorem State.setReset_resetFlag (f : Byte) (s : State) :
    s.setReset (resetFlag f)
      = { s with lineReset := decide (f = 0x00), trace := .reset (decide (f = 0x00)) :: s.trace } := by
  have hflag : (!resetFlag f) = decide (f = 0x00) :=
    (State.setReset_lineReset _ s).symm.trans (s.setReset_resetFlag_lineReset f)
  rw [State.setReset_eq, hflag]

/-- Settles O13: both arms are `setReset` of the flag (`State.setReset_resetFlag`). -/
theorem resetDeviceCompletes : Obligations.ResetDeviceCompletes := by
  unfold Obligations.ResetDeviceCompletes
  intro r q f x1 x2 x3 body s
  have hreset := s.setReset_resetFlag f
  exact ⟨congrArg Host.Outcome.next hreset, congrArg Host.Outcome.next hreset⟩

/-- Settles O16: `exec_unknownS`, `exec_unknownB`. -/
theorem unknownOpcodeDoesNothing : Obligations.UnknownOpcodeDoesNothing := by
  unfold Obligations.UnknownOpcodeDoesNothing
  exact fun r q o x0 x1 x2 x3 body s => ⟨exec_unknownS r q o x0 x1 x2 x3 s, exec_unknownB r q o x0 body s⟩

/-! ## What an instruction costs (R28, R92) -/

/-- From `s` to `t` there are 32 samples, 32 rising clock edges and 64 settle delays for each of `n` transactions. -/
def State.CostTo (s : State) (n : Nat) (t : State) : Prop :=
  t.draws = s.draws + 32 * n
    ∧ risingEdges t.lineEvents = risingEdges s.lineEvents + 32 * n
    ∧ settleCount t.lineEvents = settleCount s.lineEvents + 64 * n

theorem State.CostTo.trans {s t u : State} {m n : Nat} (h1 : s.CostTo m t) (h2 : t.CostTo n u) :
    s.CostTo (m + n) u := by
  obtain ⟨hdraws1, hedges1, hsettles1⟩ := h1
  obtain ⟨hdraws2, hedges2, hsettles2⟩ := h2
  exact ⟨by omega, by omega, by omega⟩

theorem State.CostTo.storeReply {s t : State} {n : Nat} (h : s.CostTo n t) : s.CostTo n t.storeReply := h

theorem risingEdges_append (as bs : List LineEvent) : risingEdges (as ++ bs) = risingEdges as + risingEdges bs :=
  List.countP_append

theorem risingEdges_bitEvents : ∀ v x : Level, risingEdges (bitEvents v x) = 1 := by decide

/-- One rising edge a bit. -/
theorem risingEdges_bitsEvents : ∀ {vs ss : List Level}, vs.length = ss.length →
    risingEdges (bitsEvents vs ss) = vs.length
  | [], [], _ => rfl
  | v :: vs, x :: ss, h => by
    rw [bitsEvents_cons, risingEdges_append, risingEdges_bitEvents, risingEdges_bitsEvents (Nat.succ.inj h),
      List.length_cons, Nat.add_comm]

/-- 32 rising edges a transaction. -/
theorem risingEdges_traceOf (c : Quad) {ss : List Level} (h : ss.length = 32) : risingEdges (traceOf c ss) = 32 :=
  risingEdges_bitsEvents h.symm

theorem State.issueCommand_cost (c : Quad) (s : State) : s.CostTo 1 (s.issueCommand c) := by
  have hlen := s.length_quadLevels c
  refine ⟨by rw [State.issueCommand_eq], ?_, ?_⟩
  · rw [State.issueCommand_lineEvents, risingEdges_append, risingEdges_traceOf c hlen]
  · rw [State.issueCommand_lineEvents, settleCount_append, settleCount_traceOf c hlen]

theorem State.issueAll_cost : ∀ (cs : List Quad) (s : State), s.CostTo cs.length (s.issueAll cs)
  | [], _ => ⟨rfl, rfl, rfl⟩
  | c :: cs, s => by
    have hone := (s.issueCommand_cost c).storeReply
    rw [List.length_cons, Nat.add_comm, State.issueAll]
    exact hone.trans (State.issueAll_cost cs _)

/-- A reset-line event is neither a clock edge nor a settle delay. -/
theorem State.setReset_cost (a : Bool) (s : State) : s.CostTo 0 (s.setReset a) := by
  have hevents : (s.setReset a).lineEvents = s.lineEvents ++ [.reset (!a)] := by
    rw [State.setReset_eq, State.lineEvents, List.reverse_cons]
    rfl
  refine ⟨State.setReset_draws a s, ?_, ?_⟩
  · rw [hevents, risingEdges_append]; rfl
  · rw [hevents, settleCount_append]; rfl

/-- An instruction costs what its transactions do. -/
theorem exec_cost {i : Instr} {s t : State} (h : exec i s = .next t) : s.CostTo (transactionCount i) t := by
  rcases exec_cases h with ⟨a, rfl, hn⟩ | ⟨cs, rfl, hn⟩ | ⟨rfl, hn⟩ | ⟨rfl, rfl⟩ | ⟨c, rfl, rfl⟩
  · exact hn ▸ s.setReset_cost a
  · exact hn ▸ State.issueAll_cost cs s
  · exact hn ▸ ⟨rfl, rfl, rfl⟩
  · exact ⟨rfl, rfl, rfl⟩
  · exact s.issueCommand_cost c

/-- Settles O22: `exec_cost`; the least duration is the settle delays times `T_SETTLE`. -/
theorem costPerTransaction : Obligations.CostPerTransaction := by
  unfold Obligations.CostPerTransaction
  intro i s t h
  obtain ⟨hdraws, hedges, hsettles⟩ := exec_cost h
  refine ⟨hdraws, hedges, hsettles, ?_⟩
  rw [leastDurationNs, leastDurationNs, hsettles, Nat.add_mul]

end Sys2Proof.Machine

/-! ## The sequencing state phase by phase (R13, R33, R42) -/

namespace Sys2Proof.Machine

/-! ### One transaction (R42) -/

theorem State.standAt_self {s : State} (h : s.atTransactionStart = true) : s.standAt s.txnIdx 0 7 = s := by
  obtain ⟨hbyte, hbit, hphase, hwait⟩ := State.atTransactionStart_iff.mp h
  rw [State.standAt, ← hbyte, ← hbit, ← hphase, ← hwait]

/-- A transaction leaves the sequencing state alone. -/
theorem State.issueCommand_standAt_self {s : State} (h : s.atTransactionStart = true) (c : Quad) :
    (s.issueCommand c).standAt s.txnIdx 0 7 = s.issueCommand c := by
  rw [State.issueCommand_eq]
  exact State.standAt_self h

/-- Settles O39: both are `issueCommand` of the four bytes the block stands at, and its caller's part
(`State.phaseSteps_transaction`). -/
theorem phasesRefineATransaction : Obligations.PhasesRefineATransaction := by
  unfold Obligations.PhasesRefineATransaction
  intro s hs hb hstart
  have hsteps := State.phaseSteps_transaction s.txnIdx hb (Params.wf_settleCycles hs.params)
  rw [State.standAt_self hstart, State.issueCommand_standAt_self hstart] at hsteps
  rw [runTransaction_eq, hsteps]
  rfl

/-! ### When `DATA_OUT` changes and when `DATA_IN` is sampled (R33) -/

/-- A phase step changes `DATA_OUT` only with `CLOCK` low, and samples only with `CLOCK` high. -/
def State.ClockedStep (s t : State) : Prop :=
  (t.lineDataOut ≠ s.lineDataOut → s.lineClock = false ∧ t.lineClock = false)
    ∧ (t.draws ≠ s.draws → s.lineClock = true ∧ t.lineClock = true)

theorem State.ClockedStep.of_unchanged {s t : State} (hline : t.lineDataOut = s.lineDataOut)
    (hdraws : t.draws = s.draws) : s.ClockedStep t :=
  ⟨fun hne => absurd hline hne, fun hne => absurd hdraws hne⟩

theorem State.settleStep_clockedStep (n : Phase) (s : State) : s.ClockedStep (s.settleStep n) := by
  obtain ⟨_, _, _, h, -⟩ := s.settleStep_frame n
  rw [h]
  exact .of_unchanged rfl rfl

/-- Phase 0 alone drives `DATA_OUT`, and phase 3 alone samples; the clock level is that of the phase. -/
theorem State.phaseStep_clockedStep {s : State} (hclock : s.lineClock = s.phase.clockHigh) :
    s.ClockedStep s.phaseStep := by
  cases hphase : s.phase <;> rw [hphase] at hclock
  case driveData =>
    rw [State.phaseStep_driveData hphase]
    exact ⟨fun _ => ⟨hclock, hclock⟩, fun hne => absurd rfl hne⟩
  case settleLow =>
    rw [State.phaseStep_settleLow hphase]
    exact s.settleStep_clockedStep _
  case raiseClock =>
    rw [State.phaseStep_raiseClock hphase]
    exact .of_unchanged rfl rfl
  case sample =>
    rw [State.phaseStep_sample hphase]
    exact ⟨fun hne => absurd rfl hne, fun _ => ⟨hclock, hclock⟩⟩
  case settleHigh =>
    rw [State.phaseStep_settleHigh hphase]
    exact s.settleStep_clockedStep _
  case lowerClock =>
    obtain ⟨_, _, _, _, _, _, h⟩ := (s.setLine .clock false).endBit_frame
    rw [State.phaseStep_lowerClock hphase, h]
    exact .of_unchanged rfl rfl

theorem continueDispatch_of_phased {s : State} (h : s.phased = true) : continueDispatch s = .next s.phaseStep := by
  rw [continueDispatch, h]
  rfl

/-- Settles O42: the step is a phase step (`continueDispatch_of_phased`), with the clock where the phase has it. -/
theorem dataChangesLowAndSamplesHigh : Obligations.DataChangesLowAndSamplesHigh := by
  unfold Obligations.DataChangesLowAndSamplesHigh
  intro s t hs hr hb hphased h
  rw [step_of_busy hr hb, continueDispatch_of_phased hphased] at h
  obtain rfl := Host.Outcome.next.inj h
  exact State.phaseStep_clockedStep (hs.clock hb)

/-! ### Every dispatch ends (R13) -/

/-- How many phase steps the bit in progress still takes, itself included. -/
def State.bitStepsLeft (s : State) : Nat :=
  match s.phase with
  | .driveData => 4 + 2 * s.params.settleCycles
  | .settleLow => 3 + 2 * s.params.settleCycles - s.waitCnt
  | .raiseClock => 3 + s.params.settleCycles
  | .sample => 2 + s.params.settleCycles
  | .settleHigh => 1 + s.params.settleCycles - s.waitCnt
  | .lowerClock => 1

/-- How many of the bits of `total` transactions come after bit `k` of byte `j` of transaction `x`. -/
def bitsAfter (total : Nat) (x : Fin 32) (j : Fin 4) (k : Fin 8) : Nat :=
  32 * (total - 1 - x.val) + 8 * (3 - j.val) + k.val

/-- How many bits of the dispatch come after the one in progress. -/
def State.bitsLeft (s : State) : Nat := bitsAfter s.transactionTotal s.txnIdx s.byteIdx s.bitIdx

/-- How many phase steps the dispatch in progress still takes. -/
def State.stepsLeft (s : State) : Nat := s.bitsLeft * (4 + 2 * s.params.settleCycles) + s.bitStepsLeft

/-- A bit has at least its fall of `CLOCK` to come, and at most its four single phases and two holds (R42, R79). -/
theorem State.bitStepsLeft_bounds {s : State} (hwait : s.waitCnt < s.params.settleCycles) :
    0 < s.bitStepsLeft ∧ s.bitStepsLeft ≤ 4 + 2 * s.params.settleCycles := by
  unfold State.bitStepsLeft
  split <;> omega

theorem State.stepsLeft_pos {s : State} (hs : s.Inv) : 0 < s.stepsLeft := by
  obtain ⟨hpos, -⟩ := State.bitStepsLeft_bounds hs.wait.1
  exact Nat.add_pos_right _ hpos

/-- A dispatch has at most 31 transactions of 32 bits (R35, R44). -/
theorem State.stepsLeft_le {s : State} (hs : s.Inv) (hb : s.busy = true) :
    s.stepsLeft ≤ 31 * (32 * (4 + 2 * s.params.settleCycles)) := by
  obtain ⟨-, -, -, hidx⟩ := hs.frame hb
  obtain ⟨-, hbit⟩ := State.bitStepsLeft_bounds hs.wait.1
  have hle := s.transactionTotal_le
  have hbits : s.bitsLeft + 1 ≤ 31 * 32 := by unfold State.bitsLeft bitsAfter; omega
  calc s.stepsLeft ≤ s.bitsLeft * (4 + 2 * s.params.settleCycles) + (4 + 2 * s.params.settleCycles) :=
        Nat.add_le_add_left hbit _
    _ = (s.bitsLeft + 1) * (4 + 2 * s.params.settleCycles) := (Nat.succ_mul _ _).symm
    _ ≤ 31 * 32 * (4 + 2 * s.params.settleCycles) := Nat.mul_le_mul_right _ hbits
    _ = 31 * (32 * (4 + 2 * s.params.settleCycles)) := Nat.mul_assoc _ _ _

theorem bitsAfter_next_transaction {total : Nat} {x : Fin 32} (hx : x.val + 1 < total) (htotal : total ≤ 31)
    (j : Fin 4) (k : Fin 8) : bitsAfter total (x + 1) j k + 32 = bitsAfter total x j k := by
  have hnext : (x + 1).val = x.val + 1 := by omega
  rw [bitsAfter, bitsAfter, hnext]
  omega

theorem bitsAfter_next_byte {j : Fin 4} (hj : j.val < 3) (total : Nat) (x : Fin 32) (k : Fin 8) :
    bitsAfter total x (j + 1) k + 8 = bitsAfter total x j k := by
  have hnext : (j + 1).val = j.val + 1 := by omega
  rw [bitsAfter, bitsAfter, hnext]
  omega

theorem bitsAfter_next_bit {k : Fin 8} (hk : 0 < k.val) (total : Nat) (x : Fin 32) (j : Fin 4) :
    bitsAfter total x j (k - 1) + 1 = bitsAfter total x j k := by
  have hnext : (k - 1).val + 1 = k.val := by omega
  rw [bitsAfter, bitsAfter, ← hnext]
  rfl

/-- Back at byte 0 from the last byte, 24 more bits come. -/
theorem bitsAfter_first_byte {j : Fin 4} (hj : ¬ j.val < 3) (total : Nat) (x : Fin 32) (k : Fin 8) :
    bitsAfter total x 0 k = bitsAfter total x j k + 24 := by
  have hzero : (0 : Fin 4).val = 0 := rfl
  rw [bitsAfter, bitsAfter, hzero]
  omega

/-- Back at bit 7 from the last bit, seven more bits come. -/
theorem bitsAfter_first_bit {k : Fin 8} (hk : ¬ 0 < k.val) (total : Nat) (x : Fin 32) (j : Fin 4) :
    bitsAfter total x j 7 = bitsAfter total x j k + 7 := by
  have hzero : k.val = 0 := Nat.eq_zero_of_not_pos hk
  rw [bitsAfter, bitsAfter, hzero]
  rfl

/-- The end of a transaction that does not end the dispatch: the next transaction's 32 bits come. -/
theorem State.endTransaction_bitsLeft {s : State} (hb : s.endTransaction.busy = true) :
    s.endTransaction.bitsLeft + 32 = s.bitsLeft := by
  by_cases hmore : s.txnIdx.val + 1 < s.transactionTotal
  · rw [State.endTransaction_of_more hmore]
    exact bitsAfter_next_transaction hmore s.transactionTotal_le _ _
  · rw [State.endTransaction_of_last hmore] at hb
    cases hb

/-- The end of a byte that does not end the dispatch: the next byte's eight bits come. -/
theorem State.endByte_bitsLeft {s : State} (hb : s.endByte.busy = true) : s.endByte.bitsLeft + 8 = s.bitsLeft := by
  unfold State.endByte at hb ⊢
  split at hb
  · rename_i hlt
    rw [if_pos hlt]
    exact bitsAfter_next_byte hlt _ _ _
  · rename_i hlast
    have hend := State.endTransaction_bitsLeft hb
    have hfirst := bitsAfter_first_byte hlast s.transactionTotal s.txnIdx s.bitIdx
    rw [if_neg hlast]
    exact Nat.add_right_cancel (m := 24) (hend.trans hfirst)

/-- The end of a bit that does not end the dispatch: one bit less comes. -/
theorem State.endBit_bitsLeft {s : State} (hb : s.endBit.busy = true) : s.endBit.bitsLeft + 1 = s.bitsLeft := by
  unfold State.endBit at hb ⊢
  split at hb
  · rename_i hlt
    rw [if_pos hlt]
    exact bitsAfter_next_bit hlt _ _ _
  · rename_i hlast
    have hend := State.endByte_bitsLeft hb
    have hfirst := bitsAfter_first_bit hlast s.transactionTotal s.txnIdx s.byteIdx
    rw [if_neg hlast]
    exact Nat.add_right_cancel (m := 7) (hend.trans hfirst)

/-- A phase that does not end its bit leaves fewer phase steps. -/
theorem State.stepsLeft_lt_of_bitStepsLeft {s t : State} (hparams : t.params = s.params)
    (hbits : t.bitsLeft = s.bitsLeft) (h : t.bitStepsLeft < s.bitStepsLeft) : t.stepsLeft < s.stepsLeft := by
  rw [State.stepsLeft, State.stepsLeft, hparams, hbits]
  omega

/-- A count of a hold leaves fewer phase steps, where the phase after it does. -/
theorem State.settleStep_stepsLeft {s : State} {next : Phase}
    (hcount : s.waitCnt + 1 < s.params.settleCycles →
      ({ s with waitCnt := s.waitCnt + 1 } : State).bitStepsLeft < s.bitStepsLeft)
    (hend : ({ s with waitCnt := 0, phase := next } : State).bitStepsLeft < s.bitStepsLeft) :
    (s.settleStep next).stepsLeft < s.stepsLeft := by
  obtain ⟨es, ⟨hmore, hs⟩ | ⟨-, hs⟩⟩ := s.settleStep_cases next
  · rw [hs]
    exact State.stepsLeft_lt_of_bitStepsLeft rfl rfl (hcount hmore)
  · rw [hs]
    exact State.stepsLeft_lt_of_bitStepsLeft rfl rfl hend

/-- Every phase step that does not end the dispatch leaves fewer phase steps. -/
theorem State.phaseStep_stepsLeft {s : State} (hs : s.Inv) (hb : s.phaseStep.busy = true) :
    s.phaseStep.stepsLeft < s.stepsLeft := by
  obtain ⟨hwait, -⟩ := hs.wait
  cases hphase : s.phase
  case driveData =>
    rw [State.phaseStep_driveData hphase]
    refine State.stepsLeft_lt_of_bitStepsLeft rfl rfl ?_
    simp only [State.bitStepsLeft, hphase, State.setLine_params]
    omega
  case settleLow =>
    rw [State.phaseStep_settleLow hphase]
    refine State.settleStep_stepsLeft (fun _ => ?_) ?_
    · simp only [State.bitStepsLeft, hphase]
      omega
    · simp only [State.bitStepsLeft, hphase]
      omega
  case raiseClock =>
    rw [State.phaseStep_raiseClock hphase]
    refine State.stepsLeft_lt_of_bitStepsLeft rfl rfl ?_
    simp only [State.bitStepsLeft, hphase, State.setLine_params]
    omega
  case sample =>
    rw [State.phaseStep_sample hphase]
    refine State.stepsLeft_lt_of_bitStepsLeft rfl rfl ?_
    simp only [State.bitStepsLeft, hphase, State.samplePhase_params]
    omega
  case settleHigh =>
    rw [State.phaseStep_settleHigh hphase]
    refine State.settleStep_stepsLeft (fun _ => ?_) ?_
    · simp only [State.bitStepsLeft, hphase]
      omega
    · simp only [State.bitStepsLeft, hphase]
      omega
  case lowerClock =>
    rw [State.phaseStep_lowerClock hphase] at hb ⊢
    have hbits : (s.setLine .clock false).endBit.bitsLeft + 1 = s.bitsLeft := State.endBit_bitsLeft hb
    obtain ⟨_, _, _, _, _, _, h⟩ := (s.setLine .clock false).endBit_frame
    have hnew : (s.setLine .clock false).endBit.bitStepsLeft = 4 + 2 * s.params.settleCycles := by rw [h]; rfl
    have hparams : (s.setLine .clock false).endBit.params = s.params := by rw [h]; rfl
    have hlast : s.bitStepsLeft = 1 := by rw [State.bitStepsLeft, hphase]
    rw [State.stepsLeft, State.stepsLeft, hnew, hlast, hparams, ← hbits,
      Nat.succ_mul (s.setLine .clock false).endBit.bitsLeft]
    exact Nat.lt_succ_self _

/-- As many phase steps as are left end the dispatch. -/
theorem State.phaseSteps_busy_of_stepsLeft_le : ∀ {n : Nat} {s : State}, s.Inv → s.stepsLeft ≤ n →
    (State.phaseSteps n s).busy = false
  | 0, s, hs, hn => absurd (State.stepsLeft_pos hs) (by omega)
  | n + 1, s, hs, hn => by
    cases hb : s.busy with
    | false => rw [State.phaseSteps_of_not_busy _ hb, hb]
    | true =>
      rw [State.phaseSteps_succ n hb]
      cases hb' : s.phaseStep.busy with
      | false => rw [State.phaseSteps_of_not_busy _ hb', hb']
      | true =>
        have hlt := State.phaseStep_stepsLeft hs hb'
        exact State.phaseSteps_busy_of_stepsLeft_le (State.phaseStep_inv hs hb) (by omega)

/-- Settles O41: a dispatch in progress has at most that many phase steps left (`State.stepsLeft_le`). -/
theorem everyDispatchEnds : Obligations.EveryDispatchEnds := by
  unfold Obligations.EveryDispatchEnds
  intro s hs
  cases hb : s.busy with
  | false => rw [State.phaseSteps_of_not_busy _ hb, hb]
  | true => exact State.phaseSteps_busy_of_stepsLeft_le hs (State.stepsLeft_le hs hb)

end Sys2Proof.Machine

/-! ## Reset and ports (R16, R17, R81, R82) -/

namespace Sys2Proof.Machine

/-- Settles O46: `State.reset` field by field; nothing is listed in its receive buffer. -/
theorem resetLeavesTheTableOfValues : Obligations.ResetLeavesTheTableOfValues := by
  unfold Obligations.ResetLeavesTheTableOfValues
  exact ⟨rfl, rfl, rfl, rfl, rfl, Memory.load_nil, rfl, rfl, rfl, rfl, rfl, rfl, rfl, rfl, rfl, rfl⟩

/-- Settles O47: the step is `State.hardReset` (`step_of_rst`), which takes these fields from `State.reset`. -/
theorem hardwareResetFromEveryState : Obligations.HardwareResetFromEveryState := by
  unfold Obligations.HardwareResetFromEveryState
  intro s hr
  exact ⟨s.hardReset, step_of_rst hr, rfl, rfl, rfl, rfl, rfl, Memory.load_nil, rfl, rfl, rfl, rfl, rfl, rfl, rfl,
    rfl, rfl⟩

/-- The report right after reset, with the offsets of decision D4 and the status values of D5. -/
theorem statusReport_reset : State.reset.statusReport = [0x01, 0x00, 0x00, 0x00, 0x00, 0x00, 0x00] := rfl

/-- Settles O48: `statusReport_reset`, and no room for data before a command start (`takeData_of_full`). -/
theorem firstBehaviourAfterReset : Obligations.FirstBehaviourAfterReset := by
  unfold Obligations.FirstBehaviourAfterReset
  have hread := takeRead_status State.reset
  rw [statusReport_reset] at hread
  exact ⟨hread, takeData_of_full (Nat.le_refl 0)⟩

/-! ### The read port (R16) -/

theorem packAnswer_cons (b : Byte) (bs : List Byte) :
    packAnswer (b :: bs) = packAnswer bs <<< 8 ||| b.setWidth 56 := rfl

/-- Byte 0 of an answer stands in bits 7 to 0. -/
theorem extractLsb'_packAnswer_zero (b : Byte) (bs : List Byte) :
    (packAnswer (b :: bs)).extractLsb' 0 8 = b := by
  refine BitVec.eq_of_getLsbD_eq fun i hi => ?_
  have hwide : i < 56 := by omega
  simp [packAnswer_cons, hi, hwide]

/-- The bytes after byte 0 stand eight bits higher, as far as the 56 bits go. -/
theorem extractLsb'_packAnswer_succ (b : Byte) (bs : List Byte) {k : Nat} (hk : k + 1 < 7) :
    (packAnswer (b :: bs)).extractLsb' (8 * (k + 1)) 8 = (packAnswer bs).extractLsb' (8 * k) 8 := by
  refine BitVec.eq_of_getLsbD_eq fun i hi => ?_
  have hwide : 8 * (k + 1) + i < 56 := by omega
  have hbelow : 8 * k + i < 56 := by omega
  have hshift : 8 * (k + 1) + i - 8 = 8 * k + i := by omega
  have habove : ¬ 8 * (k + 1) + i < 8 := by omega
  have hbyte : b.getLsbD (8 * (k + 1) + i) = false := BitVec.getLsbD_of_ge _ _ (by omega)
  simp [packAnswer_cons, hi, hwide, hshift, habove, hbyte, BitVec.getLsbD_eq_getElem hbelow]

/-- Byte `k` of an answer stands in bits `8 k + 7` to `8 k`. -/
theorem extractLsb'_packAnswer : ∀ {a : List Byte} {k : Nat}, k < a.length → k < 7 →
    some ((packAnswer a).extractLsb' (8 * k) 8) = a[k]?
  | b :: bs, 0, _, _ => congrArg some (extractLsb'_packAnswer_zero b bs)
  | b :: bs, k + 1, hlen, hk => by
    rw [extractLsb'_packAnswer_succ b bs hk, List.getElem?_cons_succ]
    exact extractLsb'_packAnswer (Nat.lt_of_succ_lt_succ hlen) (by omega)

theorem State.lastAnswer_of_answers {s : State} {a : List Byte} {as : List (List Byte)} (h : s.answers = a :: as) :
    s.lastAnswer = a := by
  rw [State.lastAnswer, h]
  rfl

theorem State.ports_hRdLen (s : State) : s.ports.hRdLen = BitVec.ofNat 3 s.lastAnswer.length := rfl

/-- Settles O50: the levels by definition; the newest answer is `State.lastAnswer`, packed byte by byte
(`extractLsb'_packAnswer`). -/
theorem portsShowTheState : Obligations.PortsShowTheState := by
  unfold Obligations.PortsShowTheState
  refine ⟨fun s => ⟨rfl, rfl, rfl, rfl, ?done⟩, fun s a as has hlen => ?answer, fun s as has => ?empty⟩
  case done => simp [State.ports]
  case answer =>
    have hlast := State.lastAnswer_of_answers has
    have hdata : s.ports.hRdData = packAnswer a := State.readData_of_answer hlast (by rintro rfl; cases hlen)
    rw [State.ports_hRdLen, hlast, hlen, hdata]
    exact ⟨rfl, fun k hk => extractLsb'_packAnswer (by omega) hk⟩
  case empty =>
    have hlast : s.lastAnswer = [] := by
      rcases has with has | has
      · exact State.lastAnswer_of_answers has
      · rw [State.lastAnswer, has]; rfl
    rw [State.ports_hRdLen, hlast]
    rfl

end Sys2Proof.Machine
